-- ==== Sys2Proof/Word.lean ====
section
/-! DEFINITION. The word types of the HGBP block (spec/00_scope.md R7, R8, R9). -/

namespace Sys2Proof

/-- A 32-bit word: a command word, or the data of a response (R7 `CMD_W`, R97). -/
abbrev Word := BitVec 32

/-- One payload byte of the byte output (R101). -/
abbrev Byte := BitVec 8

/-- A symbol value, 0 to 255 (R7 `SYM_W`): the index of both tables. -/
abbrev Sym := BitVec 8

/-- A frequency count, 0 to 65535 (R7 `CNT_W`). -/
abbrev Count := BitVec 16

/-- A finite ordered sequence of bits, the first bit at the head (R9). -/
abbrev BitString := List Bool

end Sys2Proof
end

