-- ==== Sys2Proof/Config.lean ====
section
/-! DEFINITION. The sizes and constants of spec/00_scope.md R7 and the identification value of
spec/10_state.md R37.  The spec leaves no parameter open (spec/92_eei_decisions.md, "Parameters left
open: None"), so nothing here is opaque and the model takes no configuration argument. -/

namespace Sys2Proof.Config

/-- `NSLOT`: entries of the frequency table and of the code ROM. -/
@[simp] def nslot : Nat := 256

/-- The largest count a 16-bit entry holds (`CNT_W`). -/
@[simp] def countMax : Nat := 65535

/-- `NSYM_MAX`: most distinct symbols a successful `BUILD` accepts. -/
@[simp] def nsymMax : Nat := 255

/-- `LEN_MAX`: the longest code. -/
@[simp] def lenMax : Nat := 254

/-- `CW_W`: the width of the stored code vector. -/
@[simp] def cwWidth : Nat := 256

/-- The last legal word index of `CODE_RD` (R61: `WIDX` 0..8). -/
@[simp] def widxMax : Nat := 8

/-- The largest value of `BYTECNT` (`BYTECNT_W` is 32 bits, R33). -/
@[simp] def byteCntMax : Nat := 4294967295

/-- `PB_MAX`: most literal bits in one `PACK_BITS`. -/
@[simp] def packBitsMax : Nat := 16

/-- The last status register (R44: registers 7 to 15 do not exist). -/
@[simp] def regMax : Nat := 6

/-- The constant of register 0, the ASCII bytes "HGBP" (R37). -/
@[simp] def idValue : Word := 0x48474250

end Sys2Proof.Config
end

