-- ==== Sys2Proof/Syntax.lean ====
section
/-! DEFINITION. The command set of spec/30_encoding.md R90: one constructor per row of
spec/opcode_table.json, its operands the unsigned fields of R89 with the widths the formats of R82 give
them. -/

namespace Sys2Proof

/-- The twelve commands (R2, R90). -/
inductive Instr where
  /-- `NOP` (R210) -/
  | nop
  /-- `CLR` (R211) -/
  | clr
  /-- `FREQ_WR sym, cnt` (R111) -/
  | freqWr (sym : Sym) (cnt : Count)
  /-- `FREQ_INC sym` (R112) -/
  | freqInc (sym : Sym)
  /-- `FREQ_RD sym` (R113) -/
  | freqRd (sym : Sym)
  /-- `BUILD` (R130) -/
  | build
  /-- `CODE_RD sym, widx` (R160) -/
  | codeRd (sym : Sym) (widx : BitVec 4)
  /-- `ENC_SYM sym` (R161) -/
  | encSym (sym : Sym)
  /-- `PACK_BITS n, bits` (R181) -/
  | packBits (n : BitVec 5) (bits : BitVec 16)
  /-- `PACK_FLUSH` (R182) -/
  | packFlush
  /-- `PACK_CLR` (R183) -/
  | packClr
  /-- `STAT_RD reg` (R212) -/
  | statRd (reg : BitVec 4)
  deriving DecidableEq, Repr

end Sys2Proof
end

