-- ==== Sys2Proof/WellFormed.lean ====
section
/-! DEFINITION. The operand-range checks of spec/30_encoding.md R94: which commands a legal command
word can stand for. -/

namespace Sys2Proof

/-- `WIDX` is 0..8 (R94). -/
abbrev widxLegal (widx : BitVec 4) : Prop := widx.toNat ≤ Config.widxMax

/-- `N` is 1..16 and no bit of `BITS` stands above the `N` literal bits (R94, R89). -/
abbrev literalLegal (n : BitVec 5) (bits : BitVec 16) : Prop :=
  1 ≤ n.toNat ∧ n.toNat ≤ Config.packBitsMax ∧ bits >>> n.toNat = 0

/-- `REG` is 0..6 (R94). -/
abbrev regLegal (reg : BitVec 4) : Prop := reg.toNat ≤ Config.regMax

/-- The commands that pass every check of R94; all other operand values of all other commands are
legal, a `CNT` of 0 among them. -/
def Instr.wellFormed : Instr → Bool
  | .nop => true
  | .clr => true
  | .freqWr _ _ => true
  | .freqInc _ => true
  | .freqRd _ => true
  | .build => true
  | .codeRd _ widx => decide (widxLegal widx)
  | .encSym _ => true
  | .packBits n bits => decide (literalLegal n bits)
  | .packFlush => true
  | .packClr => true
  | .statRd reg => decide (regLegal reg)

end Sys2Proof
end

