-- ==== Sys2Proof/Decode.lean ====
section
/-! DEFINITION. Command words to commands and back (spec/30_encoding.md R80 to R95): a decoder, total on
the 2^32 words, that says by name why a word is no command; after it the encoder, and the match and mask
of every row of R90. -/

namespace Sys2Proof

/-- Why a word is an illegal command.  Every one of them is executed alike, as `IllegalCommand` (R91). -/
inductive DecodeError where
  /-- `OP` is `0xC`..`0xF` (R92). -/
  | reservedOpcode
  /-- A 1 in a must-be-zero bit of the format (R93). -/
  | mustBeZero
  /-- `CODE_RD` with `WIDX` ≥ 9 (R94). -/
  | widxRange
  /-- `PACK_BITS` with `N` = 0 or `N` ≥ 17 (R94). -/
  | bitCountRange
  /-- `PACK_BITS` with a 1 above its `N` literal bits (R94). -/
  | bitsAboveCount
  /-- `STAT_RD` with `REG` ≥ 7 (R94). -/
  | regRange
  deriving DecidableEq, Repr

/-- `w[lo+width-1 : lo]`, an unsigned field (R8, R89). -/
def field (w : Word) (lo width : Nat) : BitVec width := w.extractLsb' lo width

/-- Bits 31:28 of a command word (R81). -/
def opOf (w : Word) : Nat := (field w 28 4).toNat

/-- `w[27:lo]` is all zero: the must-be-zero bits of a format whose operands end below `lo` (R82). -/
def mbzFrom (w : Word) (lo : Nat) : Bool := decide ((field w lo (28 - lo)).toNat = 0)

/-- Accept `i` when the must-be-zero bits `27:lo` are zero (R93). -/
def afterMbz (w : Word) (lo : Nat) (i : Except DecodeError Instr) : Except DecodeError Instr :=
  if mbzFrom w lo then i else .error .mustBeZero

/-- The operand fields of `CODE_RD` (format `SX`) and their check (R94). -/
def decodeCodeRd (w : Word) : Except DecodeError Instr :=
  if widxLegal (field w 8 4) then .ok (.codeRd (field w 0 8) (field w 8 4)) else .error .widxRange

/-- The operand fields of `PACK_BITS` (format `B`) and their checks (R94). -/
def decodePackBits (w : Word) : Except DecodeError Instr :=
  let n := field w 16 5
  let bits := field w 0 16
  if ¬ (1 ≤ n.toNat ∧ n.toNat ≤ Config.packBitsMax) then .error .bitCountRange
  else if bits >>> n.toNat = 0 then .ok (.packBits n bits) else .error .bitsAboveCount

/-- The operand field of `STAT_RD` (format `R`) and its check (R94). -/
def decodeStatRd (w : Word) : Except DecodeError Instr :=
  if regLegal (field w 0 4) then .ok (.statRd (field w 0 4)) else .error .regRange

/-- The decoder: opcode map (R90), must-be-zero bits (R93), operand ranges (R94). -/
def decode (w : Word) : Except DecodeError Instr :=
  match opOf w with
  | 0x0 => afterMbz w 0 (.ok .nop)
  | 0x1 => afterMbz w 0 (.ok .clr)
  | 0x2 => afterMbz w 24 (.ok (.freqWr (field w 16 8) (field w 0 16)))
  | 0x3 => afterMbz w 8 (.ok (.freqInc (field w 0 8)))
  | 0x4 => afterMbz w 8 (.ok (.freqRd (field w 0 8)))
  | 0x5 => afterMbz w 0 (.ok .build)
  | 0x6 => afterMbz w 12 (decodeCodeRd w)
  | 0x7 => afterMbz w 8 (.ok (.encSym (field w 0 8)))
  | 0x8 => afterMbz w 21 (decodePackBits w)
  | 0x9 => afterMbz w 0 (.ok .packFlush)
  | 0xA => afterMbz w 0 (.ok .packClr)
  | 0xB => afterMbz w 4 (decodeStatRd w)
  | _ => .error .reservedOpcode

/-- Place an unsigned operand at bit `lo` of a word. -/
def place (lo : Nat) {k : Nat} (v : BitVec k) : Word := v.setWidth 32 <<< lo

/-- The word of a command (the "match" column of R90 with the operand fields put in). -/
def encode : Instr → Word
  | .nop => 0x00000000
  | .clr => 0x10000000
  | .freqWr sym cnt => 0x20000000 ||| place 16 sym ||| place 0 cnt
  | .freqInc sym => 0x30000000 ||| place 0 sym
  | .freqRd sym => 0x40000000 ||| place 0 sym
  | .build => 0x50000000
  | .codeRd sym widx => 0x60000000 ||| place 8 widx ||| place 0 sym
  | .encSym sym => 0x70000000 ||| place 0 sym
  | .packBits n bits => 0x80000000 ||| place 16 n ||| place 0 bits
  | .packFlush => 0x90000000
  | .packClr => 0xA0000000
  | .statRd reg => 0xB0000000 ||| place 0 reg

/-- One row of the opcode map (R90): the mnemonic with its match and its mask. -/
structure OpcodeRow where
  mnemonic : String
  pattern : Word
  mask : Word
  deriving DecidableEq, Repr

/-- A word selects a row when `(w & mask) = match` (R90). -/
abbrev OpcodeRow.selects (r : OpcodeRow) (w : Word) : Prop := w &&& r.mask = r.pattern

/-- The row of R90 a command belongs to. -/
def Instr.row : Instr → OpcodeRow
  | .nop => ⟨"NOP", 0x00000000, 0xFFFFFFFF⟩
  | .clr => ⟨"CLR", 0x10000000, 0xFFFFFFFF⟩
  | .freqWr _ _ => ⟨"FREQ_WR", 0x20000000, 0xFF000000⟩
  | .freqInc _ => ⟨"FREQ_INC", 0x30000000, 0xFFFFFF00⟩
  | .freqRd _ => ⟨"FREQ_RD", 0x40000000, 0xFFFFFF00⟩
  | .build => ⟨"BUILD", 0x50000000, 0xFFFFFFFF⟩
  | .codeRd _ _ => ⟨"CODE_RD", 0x60000000, 0xFFFFF000⟩
  | .encSym _ => ⟨"ENC_SYM", 0x70000000, 0xFFFFFF00⟩
  | .packBits _ _ => ⟨"PACK_BITS", 0x80000000, 0xFFE00000⟩
  | .packFlush => ⟨"PACK_FLUSH", 0x90000000, 0xFFFFFFFF⟩
  | .packClr => ⟨"PACK_CLR", 0xA0000000, 0xFFFFFFFF⟩
  | .statRd _ => ⟨"STAT_RD", 0xB0000000, 0xFFFFFFF0⟩

/-- The opcode map of R90, in the table's order. -/
def opcodeTable : List OpcodeRow :=
  [Instr.nop.row, Instr.clr.row, (Instr.freqWr 0 0).row, (Instr.freqInc 0).row, (Instr.freqRd 0).row,
   Instr.build.row, (Instr.codeRd 0 0).row, (Instr.encSym 0).row, (Instr.packBits 0 0).row,
   Instr.packFlush.row, Instr.packClr.row, (Instr.statRd 0).row]

/-- The command word of a row of spec/opcode_table.json: bits 31:0 as the table numbers them, the bits
from `nbits` up zero. -/
def tableWord (nbits w : Nat) : Word := BitVec.ofNat 32 (w % 2 ^ nbits)

/-- What the decoder reads from a word of the opcode table. -/
def decodeTableWord (nbits w : Nat) : Option Instr := (decode (tableWord nbits w)).toOption

end Sys2Proof
end

