-- ==== Sys2Proof/Machine/State.lean ====
section
/-! DEFINITION. The state of the machine: the architectural tuple of spec/10_state.md R20 (`Block`), and
beside it what stands on the four ports of spec/30_encoding.md R101 between two steps. -/

namespace Sys2Proof.Machine

/-- An array of 256 entries indexed by a symbol (R20, R60). -/
abbrev Table (α : Type) := Vector α 256

/-- An entry of the code ROM: `none` is `invalid`, `some bits` is the valid pair `(LEN, BITS)` with
`LEN` the length of `bits` (R23; R24 lets a model hold `BITS` as a list). -/
abbrev CodeEntry := Option BitString

/-- The packer's state (R31 to R36). -/
structure Packer where
  /-- `ACC`: the bits accepted since the last byte boundary, right-justified (R31). -/
  acc : BitVec 8
  /-- `NB`: how many bits `ACC` holds (R32). -/
  nb : BitVec 3
  /-- `BYTECNT`: payload bytes emitted since the last packer clear (R33). -/
  byteCnt : BitVec 32
  /-- `TRAIL`: the trailing-bit count (R34). -/
  trail : BitVec 4
  /-- `CLOSED`: a flush has ended the payload (R35). -/
  closed : Bool
  deriving DecidableEq, Repr

/-- The architectural state of one HGBP instance: exactly the tuple of R20. -/
structure Block where
  /-- `FREQ`, the frequency table (R21, R22). -/
  freq : Table Count
  /-- `CODE`, the code ROM (R23, R24). -/
  code : Table CodeEntry
  /-- `READY`: `CODE` is the code table of the current `FREQ` (R25). -/
  ready : Bool
  /-- `NSYM`, the distinct-symbol count of the last successful `BUILD` (R28). -/
  nsym : BitVec 8
  /-- `TOTAL`, the sum of all counts at the last successful `BUILD` (R29). -/
  total : BitVec 24
  /-- `ERR`, one sticky bit per fault code (R30). -/
  err : BitVec 16
  /-- `ACC`, `NB`, `BYTECNT`, `TRAIL` and `CLOSED`. -/
  packer : Packer
  deriving DecidableEq, Repr

/-- The response of one command (R97): `RC` and `DATA`. -/
structure Response where
  rc : BitVec 4
  data : Word
  deriving DecidableEq, Repr

/-- What the host puts on the block's input ports (R101): a command word on `cmd`, or the event on
`reset` (R260). -/
inductive HostEvent where
  | command (w : Word)
  | reset
  deriving DecidableEq, Repr

/-- The machine: the block, and the ports of R101. -/
structure State where
  /-- The architectural state (R20). -/
  block : Block
  /-- What the host presents, first event first; one command is outstanding at a time (R264). -/
  pending : List HostEvent
  /-- Port `rsp`: the response of the latest command, none when no command has ended since reset
  (R97, R12). -/
  rsp : Option Response
  /-- Port `out`: the bytes the latest command emitted, first byte first (R12, R74). -/
  out : List Byte
  deriving DecidableEq, Repr

/-- A clear packer (R50, R183). -/
def Packer.reset : Packer := { acc := 0, nb := 0, byteCnt := 0, trail := 0, closed := false }

/-- The architectural state after reset (R50, R260). -/
def Block.reset : Block :=
  { freq := Vector.replicate 256 0
    code := Vector.replicate 256 none
    ready := false
    nsym := 0
    total := 0
    err := 0
    packer := Packer.reset }

/-- The machine right after reset: the block as R50 says, nothing presented, nothing answered, no byte
emitted. -/
def State.reset : State := { block := Block.reset, pending := [], rsp := none, out := [] }

/-- The fault codes of R231.  A fault of the block is a response and a sticky bit, so raising one is a
next state (R230, R242). -/
inductive FaultCode where
  /-- 1: `BUILD` finds no present symbol (R232). -/
  | emptyInput
  /-- 2: `BUILD` finds 256 present symbols, or `FREQ_INC` meets a count of 65535 (R233). -/
  | alphabetOverflow
  /-- 3: never raised, a decode-side kind whose number is reserved (R234). -/
  | malformedContainer
  /-- 4: never raised, a decode-side kind whose number is reserved (R235). -/
  | unknownCode
  /-- 5: the command word is no legal command (R236). -/
  | illegalCommand
  /-- 6: `CODE_RD` or `ENC_SYM` while `READY` = 0 (R237). -/
  | notReady
  /-- 7: `ENC_SYM` of a symbol that has no code (R238). -/
  | noCode
  /-- 8: the byte count would pass 2^32 − 1 (R239). -/
  | payloadOverflow
  /-- 9: packing after the flush (R240). -/
  | packerClosed
  deriving DecidableEq, Repr

/-- The reasons the machine stops: there are none.  Every command of the block, and every illegal word,
ends with a response and leaves the block ready for the next command (R91, R97, R243, R250), so the type
has no constructor and no step answers a fault. -/
inductive Fault where
  deriving DecidableEq, Repr

/-- The reasons a step is refused. -/
inductive Refusal where
  /-- An instruction without a meaning, by its mnemonic; raised by no arm of this model (safe). -/
  | notModelled (mnemonic : String)
  deriving DecidableEq, Repr

/-- What a command's meaning answers. -/
abbrev Answer := Host.Outcome State Fault Refusal

end Sys2Proof.Machine
end

