-- ==== Sys2Proof/Machine/Operands.lean ====
section
/-! DEFINITION. Operand forms and bit-strings: the number a bit-string spells, the literal bits of
`PACK_BITS` (spec/30_encoding.md R89), the stored form of a code-ROM entry and its nine 32-bit words
(spec/10_state.md R24, spec/20_memory.md R66, spec/42_code_rom.md R160), and the status register
numbers (spec/10_state.md R37 to R44). -/

namespace Sys2Proof.Machine

/-- One more bit at the low end of a number. -/
def shiftIn (v : Nat) (b : Bool) : Nat := 2 * v + b.toNat

/-- The number a bit-string spells, its first bit the most significant (R9, R63). -/
def natOfBits (bs : BitString) : Nat := bs.foldl shiftIn 0

/-- The bit-string `BITS[n-1], BITS[n-2], ..., BITS[0]` (R89, R181). -/
def literalBits (n : BitVec 5) (bits : BitVec 16) : BitString :=
  (List.range n.toNat).map fun i => bits.getLsbD (n.toNat - 1 - i)

/-- `VALID` of a code-ROM entry (R24). -/
def CodeEntry.valid (e : CodeEntry) : Bool := e.isSome

/-- `LEN` of a code-ROM entry, 8 bits; 0 when invalid (R24). -/
def CodeEntry.len (e : CodeEntry) : BitVec 8 := BitVec.ofNat 8 (e.getD []).length

/-- `CW` of a code-ROM entry: `CW[255-i] = BITS[i]`, all lower bits 0; 0 when invalid (R24). -/
def CodeEntry.cw (e : CodeEntry) : BitVec 256 :=
  BitVec.ofNat 256 (natOfBits ((e.getD []).takeD Config.cwWidth false))

/-- Word 0 of an entry: `VALID` in bit 8, `LEN` in bits 7:0 (R160). -/
def CodeEntry.headWord (e : CodeEntry) : Word :=
  (if CodeEntry.valid e then 0x100 else 0) ||| (CodeEntry.len e).setWidth 32

/-- Word `j` of an entry for 1 ≤ `j` ≤ 8: `CW[255-32(j-1) : 224-32(j-1)]` (R66, R160). -/
def CodeEntry.cwWord (e : CodeEntry) (j : Nat) : Word := (CodeEntry.cw e).extractLsb' (256 - 32 * j) 32

/-- The word of an entry that `CODE_RD` selects (R160). -/
def CodeEntry.word (e : CodeEntry) (widx : BitVec 4) : Word :=
  if widx.toNat = 0 then CodeEntry.headWord e else CodeEntry.cwWord e widx.toNat

/-- The seven status registers (R37 to R43). -/
inductive StatReg where
  | id
  | status
  | err
  | nsym
  | total
  | byteCnt
  | trail
  deriving DecidableEq, Repr

/-- The register a `REG` field names; registers 7 to 15 do not exist (R44). -/
def statReg (reg : BitVec 4) : Option StatReg :=
  match reg.toNat with
  | 0 => some .id
  | 1 => some .status
  | 2 => some .err
  | 3 => some .nsym
  | 4 => some .total
  | 5 => some .byteCnt
  | 6 => some .trail
  | _ => none

end Sys2Proof.Machine
end

