-- ==== Sys2Proof/Machine/Flags.lean ====
section
/-! DEFINITION. Flags and the registers made of them: the fault numbers and their `ERR` bits
(spec/60_exceptions.md R231, spec/10_state.md R30), the derived flag `FAULT`, the trailing mask and the
seven status registers (spec/10_state.md R37 to R43, R47). -/

namespace Sys2Proof.Machine

/-- The number of a fault code (R231): its response code, and its bit of `ERR`. -/
def FaultCode.number : FaultCode → Nat
  | .emptyInput => 1
  | .alphabetOverflow => 2
  | .malformedContainer => 3
  | .unknownCode => 4
  | .illegalCommand => 5
  | .notReady => 6
  | .noCode => 7
  | .payloadOverflow => 8
  | .packerClosed => 9

/-- The response code of a fault, 4 bits (R97). -/
def FaultCode.rc (f : FaultCode) : BitVec 4 := BitVec.ofNat 4 f.number

/-- `ERR` with the bit of a fault and nothing else in it (R30). -/
def FaultCode.errBit (f : FaultCode) : BitVec 16 := 1#16 <<< f.number

/-- The flag `FAULT`: 1 when `ERR` ≠ 0; no state bit of its own (R38, R47). -/
def faultFlag (err : BitVec 16) : Bool := decide (err ≠ 0)

/-- `MASK` of register `TRAIL`: `(0xFF00 >> COUNT) & 0xFF` (R43). -/
def trailMask (trail : BitVec 4) : Word := (0xFF00#32 >>> trail.toNat) &&& 0xFF

/-- Register `TRAIL`: `MASK` in bits 15:8, `COUNT` in bits 3:0 (R43). -/
def trailWord (trail : BitVec 4) : Word := (trailMask trail <<< 8) ||| trail.setWidth 32

/-- Register `STATUS`: `READY` in bit 0, `CLOSED` in bit 1, `FAULT` in bit 2, `NB` in bits 6:4 (R38). -/
def statusWord (b : Block) : Word :=
  (b.packer.nb.setWidth 32 <<< 4) ||| (if faultFlag b.err then 4 else 0)
    ||| (if b.packer.closed then 2 else 0) ||| (if b.ready then 1 else 0)

/-- The value of a status register (R37 to R43, R212). -/
def statWord (b : Block) : StatReg → Word
  | .id => Config.idValue
  | .status => statusWord b
  | .err => b.err.setWidth 32
  | .nsym => b.nsym.setWidth 32
  | .total => b.total.setWidth 32
  | .byteCnt => b.packer.byteCnt
  | .trail => trailWord b.packer.trail

end Sys2Proof.Machine
end

