-- ==== Sys2Proof/Machine/Ops.lean ====
section
/-! DEFINITION. The named operations over the state: the tables (spec/20_memory.md R60), ending a command
with a response or with a fault (spec/00_scope.md R11, spec/60_exceptions.md R242), `invalidate`
(spec/40_frequency.md R110), feeding the packer (spec/43_bitpacker.md R180), and the ports
(spec/30_encoding.md R101).  A fault transfers no control, so there is no return from one beside it
(spec/60_exceptions.md R243). -/

namespace Sys2Proof.Machine

/-- Read the entry of a symbol; no symbol is out of range (R61). -/
def Table.get {α : Type} (t : Table α) (s : Sym) : α := t[s.toNat]

/-- Write the entry of a symbol (R60). -/
def Table.set {α : Type} (t : Table α) (s : Sym) (v : α) : Table α := Vector.set t s.toNat v

/-- The table whose entry for `s` is `f s`. -/
def Table.ofSyms {α : Type} (f : Sym → α) : Table α := Vector.ofFn fun i => f (BitVec.ofNat 8 i.val)

/-- What a command ends with: the next block state, one response, and the bytes emitted in order (R12). -/
structure Result where
  block : Block
  rsp : Response
  out : List Byte
  deriving DecidableEq, Repr

/-- End a command with success, response `(0, data)` (R97); `b` is the block state it leaves. -/
def respond (b : Block) (data : Word) (out : List Byte) : Result := ⟨b, ⟨0, data⟩, out⟩

/-- TAKING A FAULT, the one operation every fault goes through (R242): `ERR[k] <- 1`, response
`(k, info)`, nothing else changed and no byte emitted. -/
def raise (b : Block) (f : FaultCode) (info : Word) : Result :=
  ⟨{ b with err := b.err ||| f.errBit }, ⟨f.rc, info⟩, []⟩

/-- `invalidate()` (R110). -/
def Block.invalidate (b : Block) : Block :=
  { b with ready := false, nsym := 0, total := 0, code := Vector.replicate 256 none }

/-- One turn of the loop of `push_bits` (R180), with the bytes emitted so far. -/
def pushBit (p : Packer × List Byte) (bit : Bool) : Packer × List Byte :=
  let acc := (p.1.acc <<< 1) ||| (BitVec.ofBool bit).setWidth 8
  if p.1.nb.toNat + 1 = 8 then
    ({ p.1 with acc := 0, nb := 0, byteCnt := p.1.byteCnt + 1 }, p.2 ++ [acc])
  else
    ({ p.1 with acc := acc, nb := p.1.nb + 1 }, p.2)

/-- `push_bits(bs)` (R180): the packer after it, and the bytes it emits. -/
def pushBits (p : Packer) (bs : BitString) : Packer × List Byte := bs.foldl pushBit (p, [])

/-- The byte count after pushing `k` bits, a natural that does not wrap (R180, R239). -/
def byteCntAfter (p : Packer) (k : Nat) : Nat := p.byteCnt.toNat + (p.nb.toNat + k) / 8

/-- The packer after `PACK_FLUSH` has passed its tests (R182). -/
def flushed (p : Packer) : Packer :=
  { acc := 0
    nb := 0
    byteCnt := if 0 < p.nb.toNat then p.byteCnt + 1 else p.byteCnt
    trail := if 0 < p.nb.toNat then p.nb.setWidth 4 else if 0 < p.byteCnt.toNat then 8 else 0
    closed := true }

/-- The bytes `PACK_FLUSH` emits: the held bits left-justified in one byte, when there are any (R182). -/
def flushBytes (p : Packer) : List Byte :=
  if 0 < p.nb.toNat then [p.acc <<< (8 - p.nb.toNat)] else []

/-- Put a command's result on the machine: the block state, the response and the bytes (R101). -/
def State.deliver (s : State) (r : Result) : Answer :=
  .next { s with block := r.block, rsp := some r.rsp, out := r.out }

/-- Execute an illegal command: `raise IllegalCommand(0)` (R91, R236). -/
def State.illegal (s : State) : Answer := s.deliver (raise s.block .illegalCommand 0)

/-- The event on the `reset` port (R260): the block in its reset state, no response, no byte. -/
def State.applyReset (s : State) : State :=
  { s with block := Block.reset, rsp := none, out := [] }

/-- The event the host presents next, and the machine once it has been taken from the port. -/
def State.takeEvent (s : State) : Option (HostEvent × State) :=
  match s.pending with
  | [] => none
  | e :: es => some (e, { s with pending := es })

/-- Make `e` the event the host presents next. -/
def State.present (s : State) (e : HostEvent) : State := { s with pending := e :: s.pending }

end Sys2Proof.Machine
end

