-- ==== Sys2Proof/Machine/BitPacker.lean ====
section
/-! DEFINITION. The bit-packer commands `PACK_BITS`, `PACK_FLUSH`, `PACK_CLR` (spec/43_bitpacker.md). -/

namespace Sys2Proof.Machine

/-- `PACK_BITS n, bits` on the block, its tests in the order of R181 and R241; the operand test stands
here as in the rule, though a decoded command always passes it. -/
def Block.packBits (b : Block) (n : BitVec 5) (bits : BitVec 16) : Result :=
  if ¬ literalLegal n bits then raise b .illegalCommand 0
  else if b.packer.closed then raise b .packerClosed 0
  else if Config.byteCntMax < byteCntAfter b.packer n.toNat then raise b .payloadOverflow 0
  else
    respond { b with packer := (pushBits b.packer (literalBits n bits)).1 } 0
      (pushBits b.packer (literalBits n bits)).2

/-- `PACK_FLUSH` on the block, its tests in the order of R182 and R241. -/
def Block.packFlush (b : Block) : Result :=
  if b.packer.closed then raise b .packerClosed 0
  else if 0 < b.packer.nb.toNat ∧ b.packer.byteCnt.toNat = Config.byteCntMax then
    raise b .payloadOverflow 0
  else
    respond { b with packer := flushed b.packer } (trailWord (flushed b.packer).trail)
      (flushBytes b.packer)

/-- `PACK_CLR` on the block (R183). -/
def Block.packClr (b : Block) : Result := respond { b with packer := Packer.reset } 0 []

/-- The meaning of `PACK_BITS` (R181). -/
def execPackBits (n : BitVec 5) (bits : BitVec 16) (s : State) : Answer :=
  s.deliver (s.block.packBits n bits)

/-- The meaning of `PACK_FLUSH` (R182). -/
def execPackFlush (s : State) : Answer := s.deliver s.block.packFlush

/-- The meaning of `PACK_CLR` (R183). -/
def execPackClr (s : State) : Answer := s.deliver s.block.packClr

end Sys2Proof.Machine
end

