-- ==== Sys2Proof/Machine/Build.lean ====
section
/-! DEFINITION. The `BUILD` command (spec/41_build.md): scan, leaves, priority merge, code derivation,
write-back.  The tree is a value local to the command (spec/10_state.md R48). -/

namespace Sys2Proof.Machine

/-- The tree of a queue member (R48): a leaf names its symbol, an internal node has its left and right
child. -/
inductive Tree where
  | leaf (sym : Sym)
  | node (left right : Tree)
  deriving DecidableEq, Repr

/-- A member of the queue `Q`: a node's weight, its index, and the tree it is the root of (R132, R134).
A weight is a natural: it never passes 2^24 (R142, R10). -/
structure QNode where
  weight : Nat
  index : Nat
  tree : Tree
  deriving DecidableEq, Repr

/-- A symbol is present when its count is not 0 (R22). -/
abbrev present (freq : Table Count) (s : Sym) : Prop := Table.get freq s ≠ 0

/-- The scan, in ascending symbol value: the present symbols, each with its count (R131). -/
def counted (freq : Table Count) : List (Sym × Count) :=
  (freq.toList.zipIdx.filter fun ci => decide (ci.1 ≠ 0)).map fun ci => (BitVec.ofNat 8 ci.2, ci.1)

/-- `S`, the list of present symbols in ascending symbol value (R131). -/
def scan (freq : Table Count) : List Sym := (counted freq).map Prod.fst

/-- `n`, the number of present symbols (R131). -/
def distinct (freq : Table Count) : Nat := (scan freq).length

/-- `Σ FREQ[s]` over all symbols (R139). -/
def totalCount (freq : Table Count) : Nat := (freq.toList.map BitVec.toNat).sum

/-- Node `i` is the leaf of the `i`-th present symbol, weighing its count; together they are the initial
queue (R132). -/
def leaves (freq : Table Count) : List QNode :=
  (counted freq).zipIdx.map fun ci => ⟨ci.1.2.toNat, ci.2, .leaf ci.1.1⟩

/-- `key(x) < key(y)`: lower weight first, among equal weights lower index first (R133). -/
abbrev QNode.before (x y : QNode) : Prop := x.weight < y.weight ∨ (x.weight = y.weight ∧ x.index < y.index)

/-- From the queue `x :: q`, the member with the lowest key and the members that remain (R134). -/
def popLowest : QNode → List QNode → QNode × List QNode
  | x, [] => (x, [])
  | x, y :: q =>
    let r := popLowest y q
    if x.before r.1 then (x, y :: q) else (r.1, x :: r.2)

/-- The internal node `k` over `a`, popped first and so left, and `b`, popped second and so right
(R134, R135). -/
def merge (k : Nat) (a b : QNode) : QNode := ⟨a.weight + b.weight, k, .node a.tree b.tree⟩

/-- The merge loop on the queue `x :: q` for `passes` passes, `k` the index of the next node (R134).
`passes` is `|Q| - 1`, the exact number of passes there are to run (R136). -/
def mergeLoop : Nat → Nat → QNode → List QNode → QNode
  | 0, _, x, _ => x
  | passes + 1, k, x, q =>
    let first := popLowest x q
    match first.2 with
    | [] => first.1
    | y :: ys =>
      let second := popLowest y ys
      mergeLoop passes (k + 1) (merge k first.1 second.1) second.2

/-- The root of the tree of a frequency table; none when no symbol is present (R134, R136). -/
def rootOf (freq : Table Count) : Option QNode :=
  match leaves freq with
  | [] => none
  | x :: q => some (mergeLoop q.length (q.length + 1) x q)

/-- The path from the root of a tree to the leaf of a symbol: 0 into the left child, 1 into the right
(R137). -/
def Tree.path : Tree → Sym → Option BitString
  | .leaf s, t => if s = t then some [] else none
  | .node l r, t =>
    match l.path t with
    | some p => some (false :: p)
    | none => (r.path t).map (true :: ·)

/-- The code a tree gives a symbol: its path (R137), but the one bit 0 when the root is a leaf (R138). -/
def Tree.code : Tree → Sym → Option BitString
  | .leaf s, t => if s = t then some [false] else none
  | .node l r, t => (Tree.node l r).path t

/-- The code table of a frequency table: an entry for every present symbol, invalid elsewhere (R139). -/
def codeTable (freq : Table Count) : Table CodeEntry :=
  match rootOf freq with
  | none => Vector.replicate 256 none
  | some root => Table.ofSyms fun s => if present freq s then root.tree.code s else none

/-- The write-back of a successful `BUILD` (R139). -/
def Block.writeCodes (b : Block) : Block :=
  { b with
    code := codeTable b.freq
    nsym := BitVec.ofNat 8 (distinct b.freq)
    total := BitVec.ofNat 24 (totalCount b.freq)
    ready := true }

/-- `BUILD` on the block (R130, R131). -/
def Block.build (b : Block) : Result :=
  if distinct b.freq = 0 then raise b .emptyInput 0
  else if distinct b.freq = 256 then raise b .alphabetOverflow 0
  else respond b.writeCodes (BitVec.ofNat 32 (distinct b.freq)) []

/-- The meaning of `BUILD` (R130). -/
def execBuild (s : State) : Answer := s.deliver s.block.build

end Sys2Proof.Machine
end

