-- ==== Sys2Proof/Machine/CodeRom.lean ====
section
/-! DEFINITION. The code-ROM commands `CODE_RD` and `ENC_SYM` (spec/42_code_rom.md). -/

namespace Sys2Proof.Machine

/-- `CODE_RD sym, widx` on the block (R160); the range test on `WIDX` stands here as in the rule, though
a decoded command always passes it. -/
def Block.codeRd (b : Block) (sym : Sym) (widx : BitVec 4) : Result :=
  if ¬ widxLegal widx then raise b .illegalCommand 0
  else if b.ready = false then raise b .notReady 0
  else respond b (CodeEntry.word (Table.get b.code sym) widx) []

/-- `ENC_SYM sym` on the block, its tests in the order of R161 and R241. -/
def Block.encSym (b : Block) (sym : Sym) : Result :=
  if b.ready = false then raise b .notReady 0
  else
    match Table.get b.code sym with
    | none => raise b .noCode 0
    | some bits =>
      if b.packer.closed then raise b .packerClosed 0
      else if Config.byteCntMax < byteCntAfter b.packer bits.length then raise b .payloadOverflow 0
      else
        respond { b with packer := (pushBits b.packer bits).1 } ((CodeEntry.len (some bits)).setWidth 32)
          (pushBits b.packer bits).2

/-- The meaning of `CODE_RD` (R160). -/
def execCodeRd (sym : Sym) (widx : BitVec 4) (s : State) : Answer := s.deliver (s.block.codeRd sym widx)

/-- The meaning of `ENC_SYM` (R161). -/
def execEncSym (sym : Sym) (s : State) : Answer := s.deliver (s.block.encSym sym)

end Sys2Proof.Machine
end

