-- ==== Sys2Proof/Machine/Frequency.lean ====
section
/-! DEFINITION. The frequency-table commands `FREQ_WR`, `FREQ_INC`, `FREQ_RD` (spec/40_frequency.md). -/

namespace Sys2Proof.Machine

/-- `FREQ_WR sym, cnt` on the block (R111). -/
def Block.freqWr (b : Block) (sym : Sym) (cnt : Count) : Result :=
  respond (Block.invalidate { b with freq := Table.set b.freq sym cnt }) 0 []

/-- `FREQ_INC sym` on the block (R112): a count of 65535 is an overflow, never a wrap. -/
def Block.freqInc (b : Block) (sym : Sym) : Result :=
  if (Table.get b.freq sym).toNat = Config.countMax then raise b .alphabetOverflow 1
  else respond (Block.invalidate { b with freq := Table.set b.freq sym (Table.get b.freq sym + 1) }) 0 []

/-- `FREQ_RD sym` on the block (R113). -/
def Block.freqRd (b : Block) (sym : Sym) : Result := respond b ((Table.get b.freq sym).setWidth 32) []

/-- The meaning of `FREQ_WR` (R111). -/
def execFreqWr (sym : Sym) (cnt : Count) (s : State) : Answer := s.deliver (s.block.freqWr sym cnt)

/-- The meaning of `FREQ_INC` (R112). -/
def execFreqInc (sym : Sym) (s : State) : Answer := s.deliver (s.block.freqInc sym)

/-- The meaning of `FREQ_RD` (R113). -/
def execFreqRd (sym : Sym) (s : State) : Answer := s.deliver (s.block.freqRd sym)

end Sys2Proof.Machine
end

