-- ==== Sys2Proof/Machine/System.lean ====
section
/-! DEFINITION. The system commands `NOP`, `CLR`, `STAT_RD` (spec/44_system.md). -/

namespace Sys2Proof.Machine

/-- `NOP` on the block (R210). -/
def Block.nop (b : Block) : Result := respond b 0 []

/-- `CLR` on the block: every field to its reset value (R211). -/
def Block.clr (b : Block) : Result :=
  respond
    { b with
      freq := Vector.replicate 256 0
      code := Vector.replicate 256 none
      ready := false
      nsym := 0
      total := 0
      err := 0
      packer := { acc := 0, nb := 0, byteCnt := 0, trail := 0, closed := false } } 0 []

/-- `STAT_RD reg` on the block (R212); a register that does not exist is an illegal command (R44). -/
def Block.statRd (b : Block) (reg : BitVec 4) : Result :=
  match statReg reg with
  | none => raise b .illegalCommand 0
  | some r => respond b (statWord b r) []

/-- The meaning of `NOP` (R210). -/
def execNop (s : State) : Answer := s.deliver s.block.nop

/-- The meaning of `CLR` (R211). -/
def execClr (s : State) : Answer := s.deliver s.block.clr

/-- The meaning of `STAT_RD` (R212). -/
def execStatRd (reg : BitVec 4) (s : State) : Answer := s.deliver (s.block.statRd reg)

end Sys2Proof.Machine
end

