-- ==== Sys2Proof/Machine/Dispatch.lean ====
section
/-! DEFINITION. One arm per command of spec/30_encoding.md R90. -/

namespace Sys2Proof.Machine

def exec (i : Instr) (s : State) : Host.Outcome State Fault Refusal :=
  match i with
  | .nop => Sys2Proof.Machine.execNop s
  | .clr => Sys2Proof.Machine.execClr s
  | .freqWr sym cnt => Sys2Proof.Machine.execFreqWr sym cnt s
  | .freqInc sym => Sys2Proof.Machine.execFreqInc sym s
  | .freqRd sym => Sys2Proof.Machine.execFreqRd sym s
  | .build => Sys2Proof.Machine.execBuild s
  | .codeRd sym widx => Sys2Proof.Machine.execCodeRd sym widx s
  | .encSym sym => Sys2Proof.Machine.execEncSym sym s
  | .packBits n bits => Sys2Proof.Machine.execPackBits n bits s
  | .packFlush => Sys2Proof.Machine.execPackFlush s
  | .packClr => Sys2Proof.Machine.execPackClr s
  | .statRd reg => Sys2Proof.Machine.execStatRd reg s

end Sys2Proof.Machine
end

