-- ==== Sys2Proof/Machine/Step.lean ====
section
/-! DEFINITION. One step of the machine: one transaction (spec/00_scope.md R5) or one reset event
(spec/70_reset_and_hazards.md R260).  The block fetches nothing (spec/10_state.md R46); the next command
word is the one the host presents. -/

namespace Sys2Proof.Machine

/-- Take the next event from the host.  A word that decodes is executed (R91), one that does not is an
illegal command, a reset event resets the block; with nothing presented the block keeps its state, since
only a command or a reset changes it (R6). -/
def step (s : State) : Host.Outcome State Fault Refusal :=
  match s.takeEvent with
  | none => .next s
  | some (.reset, t) => .next t.applyReset
  | some (.command w, t) =>
    match decode w with
    | .ok i => exec i t
    | .error _ => t.illegal

/-- `s` with a word of the opcode table presented as the host's next command. -/
def State.withFetchWord (s : State) (nbits w : Nat) : State := s.present (.command (tableWord nbits w))

end Sys2Proof.Machine
end

