-- ==== Sys2Proof/Machine/Reference.lean ====
section
/-! DEFINITION. The reference functions `pack` and `unpack` (spec/43_bitpacker.md R184, R185).  No command
performs them; the packer's claims are stated through them. -/

namespace Sys2Proof.Machine

/-- `bytes[j]` of `pack(b)`: `Σ b[8j+i] << (7-i)`, bits past the end counting 0 (R184). -/
def packByte (b : BitString) (j : Nat) : Byte :=
  BitVec.ofNat 8 ((List.range 8).map fun i => (b.getD (8 * j + i) false).toNat <<< (7 - i)).sum

/-- The bytes of `pack(b)`, `ceil(L/8)` of them (R184). -/
def packBytes (b : BitString) : List Byte := (List.range ((b.length + 7) / 8)).map (packByte b)

/-- The trailing-bit count of `pack(b)` (R184). -/
def trailCount (b : BitString) : Nat :=
  if 0 < b.length % 8 then b.length % 8 else if 0 < b.length then 8 else 0

/-- The eight bits of a byte, most significant first (R63, R185). -/
def byteBits (v : Byte) : BitString := (List.range 8).map fun i => v.getLsbD (7 - i)

/-- The meaningful bits of the last byte, its padding shifted out (R185). -/
def lastBits (v : Byte) (tbc : Nat) : BitString :=
  (List.range tbc).map fun i => (v >>> (8 - tbc)).getLsbD (tbc - 1 - i)

/-- `unpack(bytes, tbc)` (R185); the empty payload gives the empty bit-string. -/
def unpack : List Byte → Nat → BitString
  | [], _ => []
  | [v], tbc => lastBits v tbc
  | v :: w :: rest, tbc => byteBits v ++ unpack (w :: rest) tbc

end Sys2Proof.Machine
end

