-- ==== Sys2Proof/Machine/Session.lean ====
section
/-! DEFINITION. What a host sees of several commands in a row: the responses, and the byte stream, the
concatenation of the bytes of every command in command order (spec/20_memory.md R72, R74).  And the
pseudo-commands of spec/30_encoding.md R100, as lists of commands. -/

namespace Sys2Proof.Machine

/-- The machine after a run of commands, every response, and every byte emitted, in order. -/
structure Transcript where
  state : State
  rsps : List Response
  bytes : List Byte
  deriving DecidableEq, Repr

/-- What one command adds in front of the transcript of the commands after it. -/
def Transcript.after (t : State) (r : Transcript) : Transcript :=
  ⟨r.state, t.rsp.toList ++ r.rsps, t.out ++ r.bytes⟩

/-- The host has `is` executed one after another; none where the machine stops. -/
def runInstrs : List Instr → State → Option Transcript
  | [], s => some ⟨s, [], []⟩
  | i :: is, s =>
    match exec i s with
    | .next t => (runInstrs is t).map (Transcript.after t)
    | .fault _ => none
    | .refused _ => none

/-- The host presents the words `ws` one after another, each after the response to the one before
(R264); none where the machine stops. -/
def runWords : List Word → State → Option Transcript
  | [], s => some ⟨s, [], []⟩
  | w :: ws, s =>
    match step (s.present (.command w)) with
    | .next t => (runWords ws t).map (Transcript.after t)
    | .fault _ => none
    | .refused _ => none

/-- Every response of the run is a success (R12, R263). -/
abbrev Transcript.succeeded (r : Transcript) : Prop := ∀ x ∈ r.rsps, x.rc = 0

/-- `FREQ_TEXT "t"`: one `FREQ_INC` for each byte of the text (R100). -/
def freqText (t : List Sym) : List Instr := t.map Instr.freqInc

/-- `ENC_TEXT "t"`: one `ENC_SYM` for each byte of the text (R100). -/
def encText (t : List Sym) : List Instr := t.map Instr.encSym

/-- One chunk of `PACK_STR`, 1 to 16 bits (R100). -/
def packChunk (bs : BitString) : Instr :=
  .packBits (BitVec.ofNat 5 bs.length) (BitVec.ofNat 16 (natOfBits bs))

/-- The first `chunks` chunks of 16 bits of a bit-string, cut left to right (R100). -/
def packChunks : Nat → BitString → List Instr
  | 0, _ => []
  | _, [] => []
  | chunks + 1, b :: bs => packChunk ((b :: bs).take 16) :: packChunks chunks ((b :: bs).drop 16)

/-- `PACK_STR "bbbb..."` (R100); the empty string expands to nothing. -/
def packStr (bs : BitString) : List Instr := packChunks bs.length bs

/-- `FREQ_DEL sym` (R100). -/
def freqDel (sym : Sym) : Instr := .freqWr sym 0

/-- `PACK_NEW` (R100). -/
def packNew : Instr := .packClr

end Sys2Proof.Machine
end

