-- ==== Sys2Proof/Safety.lean ====
section
/-! DEFINITION. What counts as a legal state and a legal response, in the terms the statements use: the
invariants of spec/10_state.md R26, R27, R30, R34, R36 and the response codes of spec/60_exceptions.md
R231. -/

namespace Sys2Proof.Machine

/-- Packer invariants that hold after every command (R34, R36). -/
structure Packer.Inv (p : Packer) : Prop where
  acc_lt : p.acc.toNat < 2 ^ p.nb.toNat
  closed_empty : p.closed = true → p.nb = 0 ∧ p.acc = 0
  open_trail : p.closed = false → p.trail = 0
  trail_le : p.trail.toNat ≤ 8
  closed_trail : p.closed = true → (p.trail = 0 ↔ p.byteCnt = 0)

/-- Bits 0, 3, 4 and 10 to 15 of `ERR`, always 0 (R30). -/
def errReserved : BitVec 16 := 0xFC19

/-- The invariants of the block (R23, R26, R27, R30, R36). -/
structure Block.Inv (b : Block) : Prop where
  packer : b.packer.Inv
  err_bits : b.err &&& errReserved = 0
  unbuilt : b.ready = false → b.code = Vector.replicate 256 none ∧ b.nsym = 0 ∧ b.total = 0
  built : b.ready = true →
    1 ≤ distinct b.freq ∧ distinct b.freq ≤ Config.nsymMax ∧ b.nsym.toNat = distinct b.freq ∧
      b.total.toNat = totalCount b.freq ∧ b.code = codeTable b.freq
  code_present : b.ready = true → ∀ s, (Table.get b.code s).isSome = true ↔ present b.freq s
  code_len : ∀ s bits, Table.get b.code s = some bits → 1 ≤ bits.length ∧ bits.length ≤ Config.lenMax

/-- The response codes that occur (R97, R231): success, and the seven kinds that commands raise. -/
abbrev legalRc (rc : BitVec 4) : Prop :=
  rc = 0 ∨ rc = 1 ∨ rc = 2 ∨ rc = 5 ∨ rc = 6 ∨ rc = 7 ∨ rc = 8 ∨ rc = 9

/-- The invariant of the machine: the block's, and a legal latest response that, when it reports a
fault, came with no byte (R242). -/
structure State.Inv (s : State) : Prop where
  block : s.block.Inv
  rsp : ∀ r, s.rsp = some r → legalRc r.rc ∧ (r.rc ≠ 0 → s.out = [])

/-- `s` after a command that ends with success: the block `b`, the response `(0, data)`, the bytes `out`
(R12, R97). -/
def State.succeeded (s : State) (b : Block) (data : Word) (out : List Byte) : State :=
  { s with block := b, rsp := some ⟨0, data⟩, out := out }

/-- `s` after a command that ends with fault `k`: `ERR[k]` set, the response `(k, info)`, nothing else of
the block changed and no byte emitted (R242). -/
def State.faulted (s : State) (k : Nat) (info : Word) : State :=
  { s with
    block := { s.block with err := s.block.err ||| (1#16 <<< k) }
    rsp := some ⟨BitVec.ofNat 4 k, info⟩
    out := [] }

/-- The bits the packer holds, oldest first: `ACC[NB-1]` down to `ACC[0]` (R31). -/
def heldBits (p : Packer) : BitString :=
  (List.range p.nb.toNat).map fun i => p.acc.getLsbD (p.nb.toNat - 1 - i)

/-- The symbols at the leaves of a tree, left to right. -/
def Tree.syms : Tree → List Sym
  | .leaf s => [s]
  | .node l r => l.syms ++ r.syms

/-- The number of nodes of a tree (R136). -/
def Tree.size : Tree → Nat
  | .leaf _ => 1
  | .node l r => l.size + r.size + 1

/-- The subtree a bit-string leads to from the root: bit 0 turns into the left child, bit 1 into the right
one; none where a leaf has bits left over (R137).  It follows given bits and knows nothing of how the
machine derives a code. -/
def Tree.walk : Tree → BitString → Option Tree
  | t, [] => some t
  | .leaf _, _ :: _ => none
  | .node l _, false :: bits => l.walk bits
  | .node _ r, true :: bits => r.walk bits

/-- A command that feeds the packer when it succeeds (R184). -/
def pushes : Instr → Bool
  | .nop => false
  | .clr => false
  | .freqWr _ _ => false
  | .freqInc _ => false
  | .freqRd _ => false
  | .build => false
  | .codeRd _ _ => false
  | .encSym _ => true
  | .packBits _ _ => true
  | .packFlush => false
  | .packClr => false
  | .statRd _ => false

/-- The bit-string a command pushes into the packer when it succeeds (R161, R181). -/
def pushedBits (code : Table CodeEntry) : Instr → BitString
  | .nop => []
  | .clr => []
  | .freqWr _ _ => []
  | .freqInc _ => []
  | .freqRd _ => []
  | .build => []
  | .codeRd _ _ => []
  | .encSym sym => (Table.get code sym).getD []
  | .packBits n bits => literalBits n bits
  | .packFlush => []
  | .packClr => []
  | .statRd _ => []

/-- The bits a list of commands pushes, in command order (R162, R184). -/
def pushedStream (code : Table CodeEntry) (is : List Instr) : BitString := is.flatMap (pushedBits code)

/-- The bits that encode a text: the codes of its symbols, concatenated (R162). -/
def codedText (code : Table CodeEntry) (t : List Sym) : BitString :=
  t.flatMap fun s => (Table.get code s).getD []

/-- The length of a symbol's code in the table of a frequency table, 0 for an absent symbol (R141). -/
def codeLen (freq : Table Count) (s : Sym) : Nat := ((Table.get (codeTable freq) s).getD []).length

end Sys2Proof.Machine
end

