-- ==== Sys2Proof/Certificates/Slice0/Obligations.lean ====
section
/-! DEFINITION. The statements about the HGBP block for the provers, each with the rule of spec/ it
formalises. -/

open Sys2Proof Sys2Proof.Machine

-- ======================================================= encoding (spec/30_encoding.md)

/-- R82, R89, R90: no bit of an operand is dropped and none is moved. -/
def Obligations.DecodeOfEncodeIsTheCommand : Prop :=
  ∀ i : Instr, i.wellFormed = true → decode (encode i) = .ok i

/-- R80, R95: a word that decodes is the word of exactly the command read from it. -/
def Obligations.EncodeOfDecodedIsTheWord : Prop :=
  ∀ (w : Word) (i : Instr), decode w = .ok i → i.wellFormed = true ∧ encode i = w

/-- R93, R94: the words that are no command are those that match no row of R90, and those that match a
row and fail its operand-range check; all other operand values are legal. -/
def Obligations.IllegalWordsAreExactlyThese : Prop :=
  ∀ w : Word,
    (∃ e, decode w = .error e) ↔
      (∀ r ∈ opcodeTable, ¬ r.selects w)
      ∨ ((Instr.codeRd 0 0).row.selects w ∧ 9 ≤ w.toNat / 2 ^ 8 % 2 ^ 4)
      ∨ ((Instr.packBits 0 0).row.selects w ∧
          (w.toNat / 2 ^ 16 % 2 ^ 5 = 0 ∨ 17 ≤ w.toNat / 2 ^ 16 % 2 ^ 5 ∨
            (w.toNat % 2 ^ 16) / 2 ^ (w.toNat / 2 ^ 16 % 2 ^ 5) ≠ 0))
      ∨ ((Instr.statRd 0).row.selects w ∧ 7 ≤ w.toNat % 2 ^ 4)

/-- R90: the rows are disjoint, so at most one row matches a word. -/
def Obligations.AtMostOneRowMatchesAWord : Prop :=
  ∀ (w : Word), ∀ r ∈ opcodeTable, ∀ r' ∈ opcodeTable, r.selects w → r'.selects w → r = r'

/-- The words of the examples of the command rules, and three words that are no command. -/
def Obligations.ExampleWordsDecode : Prop :=
  decode 0x00000000 = .ok .nop ∧ decode 0x10000000 = .ok .clr ∧
  decode 0x20610005 = .ok (.freqWr 0x61 5) ∧ decode 0x30000061 = .ok (.freqInc 0x61) ∧
  decode 0x40000061 = .ok (.freqRd 0x61) ∧ decode 0x50000000 = .ok .build ∧
  decode 0x60000162 = .ok (.codeRd 0x62 1) ∧ decode 0x70000062 = .ok (.encSym 0x62) ∧
  decode 0x80050015 = .ok (.packBits 5 0x15) ∧ decode 0x90000000 = .ok .packFlush ∧
  decode 0xA0000000 = .ok .packClr ∧ decode 0xB0000006 = .ok (.statRd 6) ∧
  decode 0xC0000000 = .error .reservedOpcode ∧ decode 0x00000001 = .error .mustBeZero ∧
  decode 0x80030008 = .error .bitsAboveCount

-- ======================================================= the step

/-- A step runs the command the next word decodes to, with the word taken from the port. -/
def Obligations.StepRunsTheDecodedCommand : Prop :=
  ∀ (s : State) (w : Word) (es : List HostEvent) (i : Instr),
    s.pending = .command w :: es → decode w = .ok i → step s = exec i { s with pending := es }

/-- R91: every word is the word of one well-formed command, and then that command is executed, or it is
an illegal command, executed as `raise IllegalCommand(0)`. -/
def Obligations.EveryWordIsACommandOrIllegal : Prop :=
  ∀ (s : State) (w : Word) (es : List HostEvent), s.pending = .command w :: es →
    (∃ i, i.wellFormed = true ∧ encode i = w ∧ (∀ j, j.wellFormed = true → encode j = w → j = i) ∧
        step s = exec i { s with pending := es })
    ∨ ((∀ i, i.wellFormed = true → encode i ≠ w) ∧
        step s = .next (State.faulted { s with pending := es } 5 0))

/-- Reset as an event on its port, taken between two commands (log entry 4): the state of R50, no
response and no byte. -/
def Obligations.ResetEventResetsTheBlock : Prop :=
  ∀ (s : State) (es : List HostEvent), s.pending = .reset :: es →
    step s = .next { block := Block.reset, pending := es, rsp := none, out := [] }

/-- The model's choice (log entry 2): with nothing presented the machine keeps its state. -/
def Obligations.IdleStepKeepsTheState : Prop :=
  ∀ s : State, s.pending = [] → step s = .next s

/-- Every command ends, with exactly one response whose code is one of those that occur, and the next
event is there to be taken (R97, R243, R250). -/
def Obligations.EveryCommandEndsWithALegalResponse : Prop :=
  ∀ (s : State) (w : Word) (es : List HostEvent), s.pending = .command w :: es →
    ∃ t r, step s = .next t ∧ t.rsp = some r ∧ legalRc r.rc ∧ t.pending = es

/-- A session over the words of well-formed commands is the session over the commands. -/
def Obligations.WordsRunAsTheirCommands : Prop :=
  ∀ (is : List Instr) (s : State), (∀ i ∈ is, i.wellFormed = true) →
    runWords (is.map encode) s = runInstrs is s

-- ======================================================= reset and invariants

/-- R50: every piece of state after reset, the registers as read after it, and `CLR` leaving the same
state. -/
def Obligations.ResetStateIsAllZero : Prop :=
  (∀ x : Sym, Table.get State.reset.block.freq x = 0 ∧ Table.get State.reset.block.code x = none) ∧
  State.reset.block.ready = false ∧ State.reset.block.nsym = 0 ∧ State.reset.block.total = 0 ∧
  State.reset.block.err = 0 ∧ State.reset.block.packer.acc = 0 ∧ State.reset.block.packer.nb = 0 ∧
  State.reset.block.packer.byteCnt = 0 ∧ State.reset.block.packer.trail = 0 ∧
  State.reset.block.packer.closed = false ∧
  (∀ reg : BitVec 4, reg.toNat ≤ 6 →
    exec (.statRd reg) State.reset =
      .next (State.reset.succeeded Block.reset (if reg.toNat = 0 then 0x48474250 else 0) [])) ∧
  (∀ s : State, exec .clr s = .next (s.succeeded State.reset.block 0 []))

/-- The invariants R26, R27, R30, R36 hold at reset. -/
def Obligations.ResetMeetsTheInvariant : Prop := State.reset.Inv

/-- Every step keeps them, from every state that meets them. -/
def Obligations.StepKeepsTheInvariant : Prop :=
  ∀ s t : State, s.Inv → step s = .next t → t.Inv

-- ======================================================= faults (spec/60_exceptions.md)

/-- R242: a command, legal or not, that ends with a fault sets its `ERR` bit and changes nothing else;
the next command ends as if the faulting one had been a `NOP`, but for the `ERR` bit, read in `ERR`, and
`STATUS.FAULT`, which follows it. -/
def Obligations.FaultsArePrecise : Prop :=
  ∀ (s t : State) (w : Word) (es : List HostEvent) (r : Response), s.pending = .command w :: es →
    step s = .next t → t.rsp = some r → r.rc ≠ 0 →
    t = State.faulted { s with pending := es } r.rc.toNat r.data ∧
    ∀ (v : Word) (u u' : State), step (t.present (.command v)) = .next u →
      step ((State.succeeded { s with pending := es } s.block 0 []).present (.command v)) = .next u' →
      u.out = u'.out ∧ u.pending = u'.pending ∧
      { u.block with err := 0 } = { u'.block with err := 0 } ∧
      (u.block.err = u'.block.err ∨ u.block.err = u'.block.err ||| (1#16 <<< r.rc.toNat)) ∧
      (v ≠ encode (.statRd 1) → v ≠ encode (.statRd 2) → u.rsp = u'.rsp) ∧
      ∀ a b, u.rsp = some a → u'.rsp = some b → a.rc = b.rc ∧
        (v = encode (.statRd 1) → a.data = b.data ||| 4#32) ∧
        (v = encode (.statRd 2) → a.data = b.data ||| (1#32 <<< r.rc.toNat))

/-- R30: bit `k` of `ERR` is set when a command, legal or not, ends with fault code `k`, and stays set
until `CLR` or reset; the other bits stay 0. -/
def Obligations.ErrRecordsEveryFault : Prop :=
  State.reset.block.err = 0 ∧
  (∀ (s t : State) (w : Word) (es : List HostEvent) (r : Response), s.pending = .command w :: es →
    step s = .next t → t.rsp = some r →
    t.block.err =
      (if w = encode .clr then 0 else if r.rc = 0 then s.block.err
       else s.block.err ||| (1#16 <<< r.rc.toNat)) ∧
    (s.block.err &&& 0xFC19#16 = 0 → t.block.err &&& 0xFC19#16 = 0)) ∧
  (∀ (s t : State) (es : List HostEvent), s.pending = .reset :: es → step s = .next t → t.block.err = 0)

/-- R47: no command's result depends on a recorded fault, but the two registers that read `ERR`. -/
def Obligations.RecordedFaultsChangeNoResult : Prop :=
  ∀ (i : Instr) (s t : State) (e : BitVec 16), i ≠ .statRd 1 → i ≠ .statRd 2 → exec i s = .next t →
    ∃ t', exec i { s with block := { s.block with err := e } } = .next t' ∧
      t'.rsp = t.rsp ∧ t'.out = t.out ∧ t'.pending = t.pending ∧
      { t'.block with err := 0 } = { t.block with err := 0 }

/-- R68, R47, R30: which commands may write which piece of state. -/
def Obligations.EachFieldIsWrittenOnlyByItsCommands : Prop :=
  ∀ (i : Instr) (s t : State), exec i s = .next t →
    t.pending = s.pending ∧
    (t.block.freq ≠ s.block.freq → i = .clr ∨ (∃ x c, i = .freqWr x c) ∨ ∃ x, i = .freqInc x) ∧
    (t.block.code ≠ s.block.code ∨ t.block.nsym ≠ s.block.nsym ∨ t.block.total ≠ s.block.total ∨
        t.block.ready ≠ s.block.ready →
      i = .clr ∨ i = .build ∨ (∃ x c, i = .freqWr x c) ∨ ∃ x, i = .freqInc x) ∧
    (t.block.packer.trail ≠ s.block.packer.trail ∨ t.block.packer.closed ≠ s.block.packer.closed →
      i = .clr ∨ i = .packFlush ∨ i = .packClr) ∧
    (t.block.packer ≠ s.block.packer →
      i = .clr ∨ i = .packFlush ∨ i = .packClr ∨ (∃ x, i = .encSym x) ∨ ∃ n b, i = .packBits n b) ∧
    (t.out ≠ [] → i = .packFlush ∨ (∃ x, i = .encSym x) ∨ ∃ n b, i = .packBits n b) ∧
    (t.block.err ≠ s.block.err → i = .clr ∨ ∃ r, t.rsp = some r ∧ r.rc ≠ 0)

-- ======================================================= frequency table (spec/40_frequency.md)

/-- R111: `FREQ_WR` completes in every state, writes its count and invalidates the code ROM. -/
def Obligations.FreqWrWritesOneCount : Prop :=
  ∀ (sym : Sym) (cnt : Count),
    (encode (.freqWr sym cnt)).toNat = 0x20000000 + sym.toNat * 2 ^ 16 + cnt.toNat ∧
    ∀ s : State, ∃ b, exec (.freqWr sym cnt) s = .next (s.succeeded b 0 []) ∧
      (∀ x, Table.get b.freq x = if x = sym then cnt else Table.get s.block.freq x) ∧
      (∀ x, Table.get b.code x = none) ∧ b.ready = false ∧ b.nsym = 0 ∧ b.total = 0 ∧
      b.err = s.block.err ∧ b.packer = s.block.packer

/-- R112: `FREQ_INC` adds one, or faults at 65535 with everything else kept. -/
def Obligations.FreqIncCountsOrOverflows : Prop :=
  ∀ sym : Sym,
    (encode (.freqInc sym)).toNat = 0x30000000 + sym.toNat ∧
    ∀ s : State,
      ((Table.get s.block.freq sym).toNat = 65535 →
        exec (.freqInc sym) s = .next (s.faulted 2 1)) ∧
      ((Table.get s.block.freq sym).toNat < 65535 →
        ∃ b, exec (.freqInc sym) s = .next (s.succeeded b 0 []) ∧
          (Table.get b.freq sym).toNat = (Table.get s.block.freq sym).toNat + 1 ∧
          (∀ x, x ≠ sym → Table.get b.freq x = Table.get s.block.freq x) ∧
          (∀ x, Table.get b.code x = none) ∧ b.ready = false ∧ b.nsym = 0 ∧ b.total = 0 ∧
          b.err = s.block.err ∧ b.packer = s.block.packer)

/-- R113: `FREQ_RD` answers the count and changes nothing. -/
def Obligations.FreqRdReadsOneCount : Prop :=
  ∀ sym : Sym,
    (encode (.freqRd sym)).toNat = 0x40000000 + sym.toNat ∧
    ∀ s : State, ∃ v, exec (.freqRd sym) s = .next (s.succeeded s.block v []) ∧
      v.toNat = (Table.get s.block.freq sym).toNat

/-- The counting property the spec derives in 40_frequency.md section 5: one `FREQ_INC` per symbol of a
text adds the number of its occurrences to every count. -/
def Obligations.FreqTextCountsTheText : Prop :=
  ∀ (t : List Sym) (s : State),
    (∀ x, (Table.get s.block.freq x).toNat + t.count x ≤ 65535) →
    ∃ r, runInstrs (freqText t) s = some r ∧ r.succeeded ∧ r.bytes = [] ∧
      (∀ x, (Table.get r.state.block.freq x).toNat = (Table.get s.block.freq x).toNat + t.count x) ∧
      r.state.block.err = s.block.err ∧ r.state.block.packer = s.block.packer

/-- The coherence the spec states in 20_memory.md section 6: after a frequency write no lookup answers
from the old table, whatever commands other than `BUILD` come between. -/
def Obligations.LookupsFaultAfterAFrequencyWrite : Prop :=
  ∀ (s t : State) (i : Instr) (sym : Sym) (between : List Instr) (r : Transcript),
    ((∃ c, i = .freqWr sym c) ∨ (i = .freqInc sym ∧ (Table.get s.block.freq sym).toNat < 65535)) →
    exec i s = .next t → .build ∉ between → runInstrs between t = some r →
    ∀ x : Sym, exec (.encSym x) r.state = .next (r.state.faulted 6 0) ∧
      ∀ widx : BitVec 4, widx.toNat ≤ 8 → exec (.codeRd x widx) r.state = .next (r.state.faulted 6 0)

/-- R25: `READY` is set only by a successful `BUILD`, and cleared by `FREQ_WR`, a successful `FREQ_INC`,
`CLR` and reset; an illegal word leaves it. -/
def Obligations.ReadyFollowsBuildsAndFrequencyWrites : Prop :=
  State.reset.block.ready = false ∧
  (∀ (i : Instr) (s t : State) (r : Response), exec i s = .next t → t.rsp = some r →
    (t.block.ready = true ↔
      (i = .build ∧ r.rc = 0) ∨
      (s.block.ready = true ∧ i ≠ .clr ∧ (∀ x c, i ≠ .freqWr x c) ∧
        ∀ x, i = .freqInc x → r.rc ≠ 0))) ∧
  (∀ (s t : State) (es : List HostEvent), s.pending = .reset :: es → step s = .next t →
    t.block.ready = false) ∧
  (∀ (s t : State) (w : Word) (es : List HostEvent) (e : DecodeError), s.pending = .command w :: es →
    decode w = .error e → step s = .next t → t.block.ready = s.block.ready)

-- ======================================================= BUILD (spec/41_build.md)

/-- R131: the scan lists the present symbols in ascending value, and the two faults of `BUILD`. -/
def Obligations.ScanAndItsFaults : Prop :=
  ∀ s : State,
    (∀ x, x ∈ scan s.block.freq ↔ Table.get s.block.freq x ≠ 0) ∧
    (scan s.block.freq).Pairwise (fun x y => x.toNat < y.toNat) ∧
    ((scan s.block.freq).length = 0 → exec .build s = .next (s.faulted 1 0)) ∧
    ((scan s.block.freq).length = 256 → exec .build s = .next (s.faulted 2 0)) ∧
    (scan s.block.freq).length ≤ 256

/-- R132: node `i` is the leaf of the `i`-th present symbol, with its count, 1 to 65535, as weight. -/
def Obligations.LeavesFollowTheScan : Prop :=
  ∀ freq : Table Count,
    (leaves freq).length = distinct freq ∧
    ∀ (i : Nat) (x : Sym), (scan freq)[i]? = some x →
      (leaves freq)[i]? = some ⟨(Table.get freq x).toNat, i, .leaf x⟩ ∧
      1 ≤ (Table.get freq x).toNat ∧ (Table.get freq x).toNat ≤ 65535

/-- R133: the queue gives up its one member with the lowest key (weight, index), and keeps the others. -/
def Obligations.LowestKeyIsPoppedFirst : Prop :=
  ∀ (x : QNode) (q : List QNode), ((x :: q).map QNode.index).Nodup →
    (x :: q).Perm ((popLowest x q).1 :: (popLowest x q).2) ∧
    ∀ y ∈ (popLowest x q).2,
      (popLowest x q).1.weight < y.weight ∨
        ((popLowest x q).1.weight = y.weight ∧ (popLowest x q).1.index < y.index)

/-- R134, R135: a pass takes the two lowest nodes, the first popped becomes the left child and the
second the right one, and the left child never outweighs the right one. -/
def Obligations.FirstPoppedIsTheLeftChild : Prop :=
  ∀ (passes k : Nat) (x y z a b : QNode) (q zs rest : List QNode),
    popLowest x (y :: q) = (a, z :: zs) → popLowest z zs = (b, rest) →
    mergeLoop (passes + 1) k x (y :: q) =
        mergeLoop passes (k + 1) ⟨a.weight + b.weight, k, .node a.tree b.tree⟩ rest ∧
      a.weight ≤ b.weight ∧
      (((x :: y :: q).map QNode.index).Nodup → a.weight = b.weight → a.index < b.index)

/-- The size and weight facts the spec derives in 41_build.md sections 5 and 8: the root is node `2n-2`,
weighs the sum of all counts, has the present symbols at its leaves and `2n-1` nodes, and no weight
passes 24 bits. -/
def Obligations.RootHoldsAllPresentSymbols : Prop :=
  ∀ freq : Table Count, 1 ≤ distinct freq →
    ∃ root, rootOf freq = some root ∧ root.weight = totalCount freq ∧
      root.index = 2 * distinct freq - 2 ∧ root.tree.size = 2 * distinct freq - 1 ∧
      root.tree.syms.Perm (scan freq) ∧ (distinct freq ≤ 255 → root.weight < 2 ^ 24)

/-- R137: for two or more present symbols, following the stored bits of a symbol from the root, 0 into the
left child and 1 into the right one, ends at the leaf of that symbol, and no other bits lead there. -/
def Obligations.CodesAreRootToLeafPaths : Prop :=
  ∀ (s t : State) (root : QNode), 2 ≤ distinct s.block.freq → distinct s.block.freq ≤ 255 →
    rootOf s.block.freq = some root → exec .build s = .next t →
    ∀ x, Table.get s.block.freq x ≠ 0 →
      ∃ bits, Table.get t.block.code x = some bits ∧ root.tree.walk bits = some (.leaf x) ∧
        ∀ other, root.tree.walk other = some (.leaf x) → other = bits

/-- R138: a single present symbol gets the one-bit code "0", and no node is made above its leaf. -/
def Obligations.SingleSymbolGetsTheCodeZero : Prop :=
  ∀ (s t : State) (x : Sym), distinct s.block.freq = 1 → Table.get s.block.freq x ≠ 0 →
    exec .build s = .next t →
    Table.get t.block.code x = some [false] ∧
      (rootOf s.block.freq).map QNode.tree = some (.leaf x)

/-- R130, R139: a `BUILD` of 1 to 255 present symbols completes: a code for every present symbol and no
other, `NSYM`, `TOTAL` and `READY` set, the rest kept. -/
def Obligations.BuildWritesTheCodeTable : Prop :=
  encode .build = 0x50000000 ∧
  ∀ s : State, 1 ≤ distinct s.block.freq → distinct s.block.freq ≤ 255 →
    ∃ b v, exec .build s = .next (s.succeeded b v []) ∧ v.toNat = distinct s.block.freq ∧
      b.code = codeTable s.block.freq ∧
      (∀ x, (Table.get b.code x).isSome = true ↔ Table.get s.block.freq x ≠ 0) ∧
      b.nsym.toNat = distinct s.block.freq ∧ b.total.toNat = totalCount s.block.freq ∧
      b.ready = true ∧ b.freq = s.block.freq ∧ b.err = s.block.err ∧ b.packer = s.block.packer

/-- Prefix-freeness, derived in 41_build.md section 8: no code of a table is a prefix of another. -/
def Obligations.CodesArePrefixFree : Prop :=
  ∀ (freq : Table Count) (x y : Sym) (p q : BitString),
    x ≠ y → Table.get (codeTable freq) x = some p → Table.get (codeTable freq) y = some q →
    ¬ p <+: q

/-- The length bound derived in 41_build.md section 8: 1 ≤ `LEN` ≤ n-1 for n ≥ 2, and `LEN` = 1 for
n = 1. -/
def Obligations.CodeLengthsAreBounded : Prop :=
  ∀ (freq : Table Count) (x : Sym) (p : BitString), Table.get (codeTable freq) x = some p →
    1 ≤ p.length ∧ (2 ≤ distinct freq → p.length ≤ distinct freq - 1) ∧
      (distinct freq = 1 → p.length = 1)

/-- The Kraft equality derived in 41_build.md section 8, scaled by 2^254. -/
def Obligations.CodesMeetKraftEquality : Prop :=
  ∀ freq : Table Count, 2 ≤ distinct freq → distinct freq ≤ 255 →
    ((scan freq).map fun x => 2 ^ (254 - codeLen freq x)).sum = 2 ^ 254

/-- Idempotence, derived as R143 in 41_build.md section 8: `BUILD` with `READY` = 1 changes nothing. -/
def Obligations.SecondBuildChangesNothing : Prop :=
  ∀ s : State, s.Inv → s.block.ready = true →
    exec .build s = .next (s.succeeded s.block (s.block.nsym.setWidth 32) [])

/-- Determinism, derived in 41_build.md section 8 item 6: what `BUILD` writes and answers is a function of
`FREQ` alone. -/
def Obligations.BuildDependsOnFrequenciesOnly : Prop :=
  ∀ s s' t t' : State, s.block.freq = s'.block.freq → exec .build s = .next t →
    exec .build s' = .next t' →
    t.rsp = t'.rsp ∧ (1 ≤ distinct s.block.freq → distinct s.block.freq ≤ 255 →
      t.block.code = t'.block.code ∧ t.block.nsym = t'.block.nsym ∧ t.block.total = t'.block.total)

/-- The cost derived in 41_build.md section 8 item 7 and in 42_code_rom.md section 3: from a clear packer,
encoding the text the built table was counted from never faults, and leaves a payload of the sum of count
times code length in bits, as `BYTECNT` and `TRAIL` tell it. -/
def Obligations.CountedTextHasTheSummedLength : Prop :=
  ∀ (s : State) (t : List Sym), s.Inv → s.block.ready = true → s.block.packer = Packer.reset →
    (∀ x, t.count x = (Table.get s.block.freq x).toNat) →
    ∃ r, runInstrs (encText t ++ [.packFlush]) s = some r ∧ r.succeeded ∧ 1 ≤ r.bytes.length ∧
      r.state.block.packer.byteCnt.toNat = r.bytes.length ∧
      8 * (r.state.block.packer.byteCnt.toNat - 1) + r.state.block.packer.trail.toNat =
        ((scan s.block.freq).map fun x =>
          (Table.get s.block.freq x).toNat * ((Table.get s.block.code x).getD []).length).sum

-- ======================================================= code ROM (spec/42_code_rom.md)

/-- R160, R66: `CODE_RD` answers one of the nine words of an entry and changes nothing; an invalid entry
reads 0 and is no fault.  A code has at most 254 bits (R23); nothing is said of the words of a longer list
(log entry 7). -/
def Obligations.CodeRdReadsOneWord : Prop :=
  ∀ (sym : Sym) (widx : BitVec 4),
    (encode (.codeRd sym widx)).toNat = 0x60000000 + widx.toNat * 2 ^ 8 + sym.toNat ∧
    ∀ s : State,
      (9 ≤ widx.toNat → exec (.codeRd sym widx) s = .next (s.faulted 5 0)) ∧
      (widx.toNat ≤ 8 → s.block.ready = false → exec (.codeRd sym widx) s = .next (s.faulted 6 0)) ∧
      (widx.toNat ≤ 8 → s.block.ready = true →
        ∃ v, exec (.codeRd sym widx) s = .next (s.succeeded s.block v []) ∧
          (Table.get s.block.code sym = none → v = 0) ∧
          ∀ bits, Table.get s.block.code sym = some bits → bits.length ≤ 254 →
            (widx.toNat = 0 → v.toNat = 0x100 + bits.length) ∧
            (1 ≤ widx.toNat → ∀ k, k < 32 →
              v.getLsbD (31 - k) = bits.getD (32 * (widx.toNat - 1) + k) false))

/-- R161: `ENC_SYM` pushes the code's bits when the ROM is ready, the symbol has a code, the packer is open
and the byte count fits; otherwise it takes the first fault in that order.  A code has at most 254 bits
(R23); nothing is said of the data for a longer list (log entry 7). -/
def Obligations.EncSymPushesTheCode : Prop :=
  ∀ sym : Sym,
    (encode (.encSym sym)).toNat = 0x70000000 + sym.toNat ∧
    ∀ s : State,
      (s.block.ready = false → exec (.encSym sym) s = .next (s.faulted 6 0)) ∧
      (s.block.ready = true → Table.get s.block.code sym = none →
        exec (.encSym sym) s = .next (s.faulted 7 0)) ∧
      ∀ bits : BitString, s.block.ready = true → Table.get s.block.code sym = some bits →
        (s.block.packer.closed = true → exec (.encSym sym) s = .next (s.faulted 9 0)) ∧
        (s.block.packer.closed = false →
          2 ^ 32 - 1 < s.block.packer.byteCnt.toNat + (s.block.packer.nb.toNat + bits.length) / 8 →
          exec (.encSym sym) s = .next (s.faulted 8 0)) ∧
        (s.block.packer.closed = false →
          s.block.packer.byteCnt.toNat + (s.block.packer.nb.toNat + bits.length) / 8 ≤ 2 ^ 32 - 1 →
          ∃ v, exec (.encSym sym) s =
              .next (s.succeeded { s.block with packer := (pushBits s.block.packer bits).1 } v
                (pushBits s.block.packer bits).2) ∧
            (bits.length ≤ 254 → v.toNat = bits.length))

-- ======================================================= bit-packer (spec/43_bitpacker.md)

/-- R180: what `push_bits` does while the byte count does not overflow: the held bits and then the new
ones fill bytes, most significant bit first, and what does not fill a byte is held. -/
def Obligations.PushBitsFillsBytesInOrder : Prop :=
  ∀ (p : Packer) (bs : BitString),
    p.byteCnt.toNat + (p.nb.toNat + bs.length) / 8 ≤ 2 ^ 32 - 1 →
    (pushBits p bs).2.length = (p.nb.toNat + bs.length) / 8 ∧
    (pushBits p bs).1.nb.toNat = (p.nb.toNat + bs.length) % 8 ∧
    (pushBits p bs).1.byteCnt.toNat = p.byteCnt.toNat + (p.nb.toNat + bs.length) / 8 ∧
    heldBits p ++ bs = (pushBits p bs).2.flatMap byteBits ++ heldBits (pushBits p bs).1 ∧
    (p.acc.toNat < 2 ^ p.nb.toNat →
      (pushBits p bs).1.acc.toNat < 2 ^ (pushBits p bs).1.nb.toNat) ∧
    (pushBits p bs).1.trail = p.trail ∧ (pushBits p bs).1.closed = p.closed

/-- R181: `PACK_BITS` pushes `BITS[N-1]` first, `BITS[0]` last, when its operands are legal, the packer is
open and the byte count fits; otherwise it takes the first fault in that order. -/
def Obligations.PackBitsPushesTheLiteral : Prop :=
  ∀ (n : BitVec 5) (bits : BitVec 16),
    (encode (.packBits n bits)).toNat = 0x80000000 + n.toNat * 2 ^ 16 + bits.toNat ∧
    ∀ s : State,
      ((n = 0 ∨ 17 ≤ n.toNat ∨ bits >>> n.toNat ≠ 0) →
        exec (.packBits n bits) s = .next (s.faulted 5 0)) ∧
      (1 ≤ n.toNat → n.toNat ≤ 16 → bits >>> n.toNat = 0 →
        (s.block.packer.closed = true → exec (.packBits n bits) s = .next (s.faulted 9 0)) ∧
        (s.block.packer.closed = false →
          2 ^ 32 - 1 < s.block.packer.byteCnt.toNat + (s.block.packer.nb.toNat + n.toNat) / 8 →
          exec (.packBits n bits) s = .next (s.faulted 8 0)) ∧
        (s.block.packer.closed = false →
          s.block.packer.byteCnt.toNat + (s.block.packer.nb.toNat + n.toNat) / 8 ≤ 2 ^ 32 - 1 →
          ∃ bs : BitString, bs.length = n.toNat ∧
            (∀ k, k < n.toNat → bs.getD k false = bits.getLsbD (n.toNat - 1 - k)) ∧
            exec (.packBits n bits) s =
              .next (s.succeeded { s.block with packer := (pushBits s.block.packer bs).1 } 0
                (pushBits s.block.packer bs).2)))

/-- R182: `PACK_FLUSH` completes on an open packer whose byte count fits, in each of its three cases;
otherwise it takes the first fault. -/
def Obligations.PackFlushClosesThePayload : Prop :=
  encode .packFlush = 0x90000000 ∧
  ∀ s : State,
    (s.block.packer.closed = true → exec .packFlush s = .next (s.faulted 9 0)) ∧
    (s.block.packer.closed = false → 0 < s.block.packer.nb.toNat →
      s.block.packer.byteCnt.toNat = 2 ^ 32 - 1 → exec .packFlush s = .next (s.faulted 8 0)) ∧
    (s.block.packer.closed = false →
      (0 < s.block.packer.nb.toNat → s.block.packer.byteCnt.toNat < 2 ^ 32 - 1) →
      ∃ p v out, exec .packFlush s = .next (s.succeeded { s.block with packer := p } v out) ∧
        p.acc = 0 ∧ p.nb = 0 ∧ p.closed = true ∧
        v.toNat = (0xFF00 / 2 ^ p.trail.toNat) % 2 ^ 8 * 2 ^ 8 + p.trail.toNat ∧
        (0 < s.block.packer.nb.toNat →
          out = [s.block.packer.acc <<< (8 - s.block.packer.nb.toNat)] ∧
          p.byteCnt.toNat = s.block.packer.byteCnt.toNat + 1 ∧
          p.trail.toNat = s.block.packer.nb.toNat) ∧
        (s.block.packer.nb = 0 → out = [] ∧ p.byteCnt = s.block.packer.byteCnt ∧
          p.trail.toNat = if 0 < s.block.packer.byteCnt.toNat then 8 else 0))

/-- R183: `PACK_CLR` completes in every state, clears the packer and touches nothing else. -/
def Obligations.PackClrClearsThePacker : Prop :=
  encode .packClr = 0xA0000000 ∧
  ∀ s : State, exec .packClr s =
    .next (s.succeeded
      { s.block with packer := { acc := 0, nb := 0, byteCnt := 0, trail := 0, closed := false } } 0 [])

/-- R35: `CLOSED` is 1 from a successful `PACK_FLUSH` until the next packer clear, and while it is 1 the
packer takes no bits and no second flush; an illegal word leaves it. -/
def Obligations.ClosedFollowsFlushAndClear : Prop :=
  State.reset.block.packer.closed = false ∧
  (∀ (i : Instr) (s t : State) (r : Response), exec i s = .next t → t.rsp = some r →
    (t.block.packer.closed = true ↔
      (i = .packFlush ∧ r.rc = 0) ∨ (s.block.packer.closed = true ∧ i ≠ .clr ∧ i ≠ .packClr)) ∧
    (s.block.packer.closed = true → pushes i = true ∨ i = .packFlush →
      r.rc ≠ 0 ∧ t.out = [] ∧ t.block.packer = s.block.packer)) ∧
  (∀ (s t : State) (es : List HostEvent), s.pending = .reset :: es → step s = .next t →
    t.block.packer.closed = false) ∧
  (∀ (s t : State) (w : Word) (es : List HostEvent) (e : DecodeError), s.pending = .command w :: es →
    decode w = .error e → step s = .next t → t.block.packer = s.block.packer)

/-- R187, with R43: the padding bits of a final partial byte are 0, so masking it changes nothing. -/
def Obligations.PaddingBitsAreZero : Prop :=
  ∀ (s t : State) (v : Byte), exec .packFlush s = .next t → t.out = [v] →
    v.toNat % 2 ^ (8 - t.block.packer.trail.toNat) = 0 ∧
    (v.setWidth 32 &&& trailMask t.block.packer.trail) = v.setWidth 32

/-- The realisation of `pack` derived in 43_bitpacker.md section 5 (R184): from a clear packer, pushing
commands and a flush, none faulting, emit exactly `pack` of the concatenated bits, however they are cut
into commands. -/
def Obligations.SessionEmitsPackOfItsBits : Prop :=
  ∀ (is : List Instr) (s : State) (r : Transcript),
    (∀ i ∈ is, pushes i = true) → s.block.packer = Packer.reset →
    runInstrs (is ++ [.packFlush]) s = some r → r.succeeded →
    r.bytes = packBytes (pushedStream s.block.code is) ∧
    r.state.block.packer.byteCnt.toNat = (packBytes (pushedStream s.block.code is)).length ∧
    r.state.block.packer.trail.toNat = trailCount (pushedStream s.block.code is)

/-- Such a session does succeed when its commands are legal and its payload fits 2^32 − 1 bytes. -/
def Obligations.FittingSessionSucceeds : Prop :=
  ∀ (is : List Instr) (s : State),
    (∀ i ∈ is, (∃ n bits, i = .packBits n bits ∧ i.wellFormed = true) ∨
      ∃ x, i = .encSym x ∧ s.block.ready = true ∧ (Table.get s.block.code x).isSome = true) →
    s.block.packer = Packer.reset →
    (packBytes (pushedStream s.block.code is)).length ≤ 2 ^ 32 - 1 →
    ∃ r, runInstrs (is ++ [.packFlush]) s = some r ∧ r.succeeded ∧
      r.state.block.packer.closed = true ∧ r.state.block.freq = s.block.freq ∧
      r.state.block.code = s.block.code

/-- The round trip of 43_bitpacker.md section 5 (R186), for every bit-string, the empty one included. -/
def Obligations.UnpackOfPackIsTheBits : Prop :=
  ∀ b : BitString, unpack (packBytes b) (trailCount b) = b

/-- R100: the expansion of `PACK_STR` is nothing but legal `PACK_BITS` commands, one for each chunk of 16
bits, only the last one shorter, and pushes exactly its bit-string. -/
def Obligations.PackStrPushesItsString : Prop :=
  ∀ b : BitString,
    (∀ code : Table CodeEntry, pushedStream code (packStr b) = b) ∧
    (packStr b).length = (b.length + 15) / 16 ∧
    (∀ i ∈ packStr b, ∃ n bits, i = .packBits n bits ∧ i.wellFormed = true) ∧
    ∀ i ∈ (packStr b).dropLast, ∃ bits, i = .packBits 16 bits

/-- What rests on prefix-freeness in 42_code_rom.md section 3: two texts encoded with one built table
that leave the same bytes and the same trailing-bit count are the same text. -/
def Obligations.PayloadDeterminesTheText : Prop :=
  ∀ (s : State) (t t' : List Sym) (r r' : Transcript), s.Inv → s.block.packer = Packer.reset →
    runInstrs (encText t ++ [.packFlush]) s = some r → r.succeeded →
    runInstrs (encText t' ++ [.packFlush]) s = some r' → r'.succeeded →
    r.bytes = r'.bytes → r.state.block.packer.trail = r'.state.block.packer.trail → t = t'

/-- The whole flow of 70_reset_and_hazards.md section 2, from any state: for a text that is not empty, has
at most 255 distinct symbols and none more than 65535 times, every command succeeds, and the bytes are the
packed codes of the text. -/
def Obligations.WholeFlowEncodesTheText : Prop :=
  ∀ (t : List Sym) (s : State), t ≠ [] → (∀ x, t.count x ≤ 65535) → t.dedup.length ≤ 255 →
    ∃ r, runInstrs (.clr :: freqText t ++ .build :: encText t ++ [.packFlush]) s = some r ∧
      r.succeeded ∧ r.bytes = packBytes (codedText r.state.block.code t) ∧
      unpack r.bytes r.state.block.packer.trail.toNat = codedText r.state.block.code t ∧
      r.state.block.nsym.toNat = t.dedup.length ∧ r.state.block.total.toNat = t.length ∧
      r.state.block.packer.byteCnt.toNat = r.bytes.length ∧ r.state.block.err = 0

-- ======================================================= system (spec/44_system.md)

/-- R210: `NOP` completes in every state and changes nothing. -/
def Obligations.NopChangesNothing : Prop :=
  encode .nop = 0x00000000 ∧ ∀ s : State, exec .nop s = .next (s.succeeded s.block 0 [])

/-- R211: `CLR` completes in every state and sets every piece of state to its reset value. -/
def Obligations.ClrClearsEverything : Prop :=
  encode .clr = 0x10000000 ∧
  ∀ s : State, ∃ b, exec .clr s = .next (s.succeeded b 0 []) ∧
    (∀ x, Table.get b.freq x = 0 ∧ Table.get b.code x = none) ∧
    b.ready = false ∧ b.nsym = 0 ∧ b.total = 0 ∧ b.err = 0 ∧ b.packer.acc = 0 ∧ b.packer.nb = 0 ∧
    b.packer.byteCnt = 0 ∧ b.packer.trail = 0 ∧ b.packer.closed = false

/-- R212: `STAT_RD` answers the register and changes nothing; registers 7 to 15 are illegal. -/
def Obligations.StatRdReadsTheRegister : Prop :=
  ∀ reg : BitVec 4,
    (encode (.statRd reg)).toNat = 0xB0000000 + reg.toNat ∧
    ∀ s : State,
      (7 ≤ reg.toNat → exec (.statRd reg) s = .next (s.faulted 5 0)) ∧
      (reg.toNat ≤ 6 →
        ∃ v, exec (.statRd reg) s = .next (s.succeeded s.block v []) ∧
          (reg.toNat = 0 → v = 0x48474250) ∧
          (reg.toNat = 1 → v.toNat = s.block.packer.nb.toNat * 16 +
            (if s.block.err ≠ 0 then 4 else 0) + (if s.block.packer.closed then 2 else 0) +
            (if s.block.ready then 1 else 0)) ∧
          (reg.toNat = 2 → v.toNat = s.block.err.toNat) ∧
          (reg.toNat = 3 → v.toNat = s.block.nsym.toNat) ∧
          (reg.toNat = 4 → v.toNat = s.block.total.toNat) ∧
          (reg.toNat = 5 → v = s.block.packer.byteCnt) ∧
          (reg.toNat = 6 → v.toNat =
            (0xFF00 / 2 ^ s.block.packer.trail.toNat) % 2 ^ 8 * 2 ^ 8 + s.block.packer.trail.toNat))

/-- R43: the nine values of register `TRAIL`. -/
def Obligations.TrailRegisterHasNineValues : Prop :=
  trailWord 0 = 0x0000 ∧ trailWord 1 = 0x8001 ∧ trailWord 2 = 0xC002 ∧ trailWord 3 = 0xE003 ∧
  trailWord 4 = 0xF004 ∧ trailWord 5 = 0xF805 ∧ trailWord 6 = 0xFC06 ∧ trailWord 7 = 0xFE07 ∧
  trailWord 8 = 0xFF08

/-- R70: a read that succeeds changes no state, and the same read again answers the same. -/
def Obligations.ReadsHaveNoSideEffect : Prop :=
  ∀ (i : Instr) (s t : State) (r : Response),
    ((∃ x, i = .freqRd x) ∨ (∃ x w, i = .codeRd x w) ∨ ∃ reg, i = .statRd reg) →
    exec i s = .next t → t.rsp = some r → r.rc = 0 →
    t.block = s.block ∧ t.out = [] ∧ exec i t = .next t
end

