-- ==== Sys2Proof/Laws/State.lean ====
section
/-! SUPPORT. One lemma per field per update of the state, and the laws of the 256-entry tables. -/

namespace Sys2Proof.Machine

section Tables
variable {α : Type}

/-- Reading the entry just written gives the value written. -/
@[simp] theorem Table.get_set_same (t : Table α) (s : Sym) (v : α) :
    Table.get (Table.set t s v) s = v := by
  simp [Table.get, Table.set]

/-- A write leaves every other entry alone. -/
theorem Table.get_set_other (t : Table α) {s x : Sym} (v : α) (h : x ≠ s) :
    Table.get (Table.set t s v) x = Table.get t x := by
  have h' : s.toNat ≠ x.toNat := fun e => h (BitVec.eq_of_toNat_eq e.symm)
  simp [Table.get, Table.set, Vector.getElem_set_ne, h']

/-- A write, read anywhere. -/
theorem Table.get_set (t : Table α) (s x : Sym) (v : α) :
    Table.get (Table.set t s v) x = if x = s then v else Table.get t x := by
  by_cases h : x = s
  · subst h; simp
  · simp [h, Table.get_set_other]

@[simp] theorem Table.get_replicate (v : α) (s : Sym) :
    Table.get (Vector.replicate 256 v : Table α) s = v := by
  simp [Table.get]

@[simp] theorem Table.get_ofSyms (f : Sym → α) (s : Sym) : Table.get (Table.ofSyms f) s = f s := by
  simp [Table.get, Table.ofSyms]

/-- Two tables that agree at every symbol are equal. -/
theorem Table.ext_get {t u : Table α} (h : ∀ s, Table.get t s = Table.get u s) : t = u := by
  apply Vector.ext
  intro i hi
  have := h (BitVec.ofNat 8 i)
  have e : i % 256 = i := Nat.mod_eq_of_lt hi
  simpa [Table.get, e] using this

end Tables

section Invalidate
variable (b : Block)

@[simp] theorem Block.invalidate_freq : b.invalidate.freq = b.freq := rfl
@[simp] theorem Block.invalidate_code : b.invalidate.code = Vector.replicate 256 none := rfl
@[simp] theorem Block.invalidate_ready : b.invalidate.ready = false := rfl
@[simp] theorem Block.invalidate_nsym : b.invalidate.nsym = 0 := rfl
@[simp] theorem Block.invalidate_total : b.invalidate.total = 0 := rfl
@[simp] theorem Block.invalidate_err : b.invalidate.err = b.err := rfl
@[simp] theorem Block.invalidate_packer : b.invalidate.packer = b.packer := rfl

end Invalidate

section Raise
variable (b : Block) (f : FaultCode) (info : Word)

@[simp] theorem raise_freq : (raise b f info).block.freq = b.freq := rfl
@[simp] theorem raise_code : (raise b f info).block.code = b.code := rfl
@[simp] theorem raise_ready : (raise b f info).block.ready = b.ready := rfl
@[simp] theorem raise_nsym : (raise b f info).block.nsym = b.nsym := rfl
@[simp] theorem raise_total : (raise b f info).block.total = b.total := rfl
@[simp] theorem raise_err : (raise b f info).block.err = b.err ||| f.errBit := rfl
@[simp] theorem raise_packer : (raise b f info).block.packer = b.packer := rfl
@[simp] theorem raise_rsp : (raise b f info).rsp = ⟨f.rc, info⟩ := rfl
@[simp] theorem raise_out : (raise b f info).out = [] := rfl

end Raise

section Respond
variable (b : Block) (data : Word) (out : List Byte)

@[simp] theorem respond_block : (respond b data out).block = b := rfl
@[simp] theorem respond_rsp : (respond b data out).rsp = ⟨0, data⟩ := rfl
@[simp] theorem respond_out : (respond b data out).out = out := rfl

end Respond

section Flush
variable (p : Packer)

@[simp] theorem flushed_acc : (flushed p).acc = 0 := rfl
@[simp] theorem flushed_nb : (flushed p).nb = 0 := rfl
@[simp] theorem flushed_closed : (flushed p).closed = true := rfl

end Flush

section Ports
variable (s : State) (e : HostEvent)

@[simp] theorem State.present_block : (s.present e).block = s.block := rfl
@[simp] theorem State.present_pending : (s.present e).pending = e :: s.pending := rfl
@[simp] theorem State.present_rsp : (s.present e).rsp = s.rsp := rfl
@[simp] theorem State.present_out : (s.present e).out = s.out := rfl
@[simp] theorem State.applyReset_block : s.applyReset.block = Block.reset := rfl
@[simp] theorem State.applyReset_pending : s.applyReset.pending = s.pending := rfl
@[simp] theorem State.applyReset_rsp : s.applyReset.rsp = none := rfl
@[simp] theorem State.applyReset_out : s.applyReset.out = [] := rfl

/-- An event just presented is the one taken next, and the machine is as it was. -/
@[simp] theorem State.takeEvent_present : (s.present e).takeEvent = some (e, s) := rfl

end Ports

end Sys2Proof.Machine
end

