-- ==== Sys2Proof/Laws/Ops.lean ====
section
/-! SUPPORT. One lemma per shared operation, saying once what it can do, and exec's arms as equations over
the block-level results; later proofs cite these instead of unfolding. -/

namespace Sys2Proof.Machine

/-- What delivering a result does: the block, the response and the bytes are the result's, and nothing
the host still has to present changes. -/
theorem deliver_eq_next (s : State) (r : Result) (t : State) :
    s.deliver r = .next t ↔
      t = { s with block := r.block, rsp := some r.rsp, out := r.out } := by
  simp [State.deliver, eq_comm]

/-- The block-level result of a command (R5): the next block state, the response and the bytes. -/
def resultOf (i : Instr) (b : Block) : Result :=
  match i with
  | .nop => b.nop
  | .clr => b.clr
  | .freqWr sym cnt => b.freqWr sym cnt
  | .freqInc sym => b.freqInc sym
  | .freqRd sym => b.freqRd sym
  | .build => b.build
  | .codeRd sym widx => b.codeRd sym widx
  | .encSym sym => b.encSym sym
  | .packBits n bits => b.packBits n bits
  | .packFlush => b.packFlush
  | .packClr => b.packClr
  | .statRd reg => b.statRd reg

/-- Every command delivers its block-level result. -/
theorem exec_eq_deliver (i : Instr) (s : State) : exec i s = s.deliver (resultOf i s.block) := by
  cases i <;> rfl

/-- `clr` leaves the reset block. -/
@[simp] theorem clr_block (b : Block) : b.clr.block = Block.reset := rfl

section PushBits
variable (p : Packer) (out : List Byte) (b : Bool) (bs cs : BitString)

@[simp] theorem pushBits_nil : pushBits p [] = (p, []) := rfl

/-- A bit adds its byte, if any, behind the bytes already emitted. -/
theorem pushBit_out : pushBit (p, out) b = ((pushBit (p, []) b).1, out ++ (pushBit (p, []) b).2) := by
  unfold pushBit; split <;> simp_all

/-- The loop of `push_bits` adds its bytes behind the bytes already emitted. -/
theorem foldl_pushBit : bs.foldl pushBit (p, out) = ((pushBits p bs).1, out ++ (pushBits p bs).2) := by
  induction bs generalizing p out with
  | nil => simp
  | cons b bs ih =>
    simp only [pushBits, List.foldl_cons]
    rw [pushBit_out p out b, ih, show pushBit (p, []) b = ((pushBit (p, []) b).1, (pushBit (p, []) b).2) from rfl, ih]
    simp

/-- One bit, then the rest. -/
theorem pushBits_cons : pushBits p (b :: bs) =
    ((pushBits (pushBit (p, []) b).1 bs).1, (pushBit (p, []) b).2 ++ (pushBits (pushBit (p, []) b).1 bs).2) :=
  foldl_pushBit (pushBit (p, []) b).1 (pushBit (p, []) b).2 bs

/-- How a bit-string is cut makes no difference. -/
theorem pushBits_append : pushBits p (bs ++ cs) =
    ((pushBits (pushBits p bs).1 cs).1, (pushBits p bs).2 ++ (pushBits (pushBits p bs).1 cs).2) := by
  simp only [pushBits, List.foldl_append]
  exact foldl_pushBit _ _ _

/-- Pushing a bit writes neither `TRAIL` nor `CLOSED`. -/
theorem pushBit_frame : (pushBit (p, out) b).1.trail = p.trail ∧ (pushBit (p, out) b).1.closed = p.closed := by
  unfold pushBit; split <;> exact ⟨rfl, rfl⟩

/-- Pushing bits writes neither `TRAIL` nor `CLOSED`. -/
theorem pushBits_frame : (pushBits p bs).1.trail = p.trail ∧ (pushBits p bs).1.closed = p.closed := by
  induction bs generalizing p with
  | nil => exact ⟨rfl, rfl⟩
  | cons b bs ih =>
    have h := pushBit_frame p [] b
    rw [pushBits_cons]
    exact ⟨(ih _).1.trans h.1, (ih _).2.trans h.2⟩

end PushBits

/-- The fault numbers are those of R231, so a fault's response code is never 0. -/
@[simp] theorem FaultCode.rc_ne_zero (f : FaultCode) : f.rc ≠ 0#4 := by cases f <;> decide

/-- A fault's bit of `ERR` is the bit its response code numbers. -/
theorem FaultCode.errBit_eq (f : FaultCode) : f.errBit = 1#16 <<< f.rc.toNat := by cases f <;> rfl

/-- Every block-level result is a success or a fault taken by `raise`. -/
theorem resultOf_cases (i : Instr) (b : Block) :
    (resultOf i b).rsp.rc = 0 ∨ ∃ f info, resultOf i b = raise b f info := by
  cases i with
  | nop => exact .inl rfl
  | clr => exact .inl rfl
  | freqWr sym cnt => exact .inl rfl
  | freqInc sym =>
    simp only [resultOf, Block.freqInc]
    split
    · exact .inr ⟨_, _, rfl⟩
    · exact .inl rfl
  | freqRd sym => exact .inl rfl
  | build =>
    simp only [resultOf, Block.build]
    split
    · exact .inr ⟨_, _, rfl⟩
    split
    · exact .inr ⟨_, _, rfl⟩
    · exact .inl rfl
  | codeRd sym widx =>
    simp only [resultOf, Block.codeRd]
    split
    · exact .inr ⟨_, _, rfl⟩
    split
    · exact .inr ⟨_, _, rfl⟩
    · exact .inl rfl
  | encSym sym =>
    simp only [resultOf, Block.encSym]
    split
    · exact .inr ⟨_, _, rfl⟩
    split
    · exact .inr ⟨_, _, rfl⟩
    split
    · exact .inr ⟨_, _, rfl⟩
    split
    · exact .inr ⟨_, _, rfl⟩
    · exact .inl rfl
  | packBits n bits =>
    simp only [resultOf, Block.packBits]
    split
    · exact .inr ⟨_, _, rfl⟩
    split
    · exact .inr ⟨_, _, rfl⟩
    split
    · exact .inr ⟨_, _, rfl⟩
    · exact .inl rfl
  | packFlush =>
    simp only [resultOf, Block.packFlush]
    split
    · exact .inr ⟨_, _, rfl⟩
    split
    · exact .inr ⟨_, _, rfl⟩
    · exact .inl rfl
  | packClr => exact .inl rfl
  | statRd reg =>
    simp only [resultOf, Block.statRd]
    split
    · exact .inr ⟨_, _, rfl⟩
    · exact .inl rfl

end Sys2Proof.Machine
end

