-- ==== Sys2Proof/Laws/PerInstr.lean ====
section
/-! SUPPORT. The per-instruction family `RowOfWord`: the word of a command selects the command's row of
the opcode map (spec/30_encoding.md R90), whatever its operands. -/

namespace Sys2Proof.Laws.RowOfWord

/-- The word of `i` has the row's fixed bits. -/
def Statement (i : Instr) : Prop := i.row.selects (encode i)

/-- A mask takes the fixed bits of a word and drops an operand that stands wholly outside it. -/
theorem and_or_place (fixed mask : Word) (lo k : Nat) (v : BitVec k) (hf : fixed &&& mask = fixed)
    (hm : ∀ j < 32, lo ≤ j → j < lo + k → mask.getLsbD j = false) :
    (fixed ||| place lo v) &&& mask = fixed := by
  have h : place lo v &&& mask = 0 := by
    apply BitVec.eq_of_getLsbD_eq
    intro j hj
    by_cases h1 : lo ≤ j ∧ j < lo + k
    · simp [hm j hj h1.1 h1.2]
    · have hv : lo ≤ j → v.getLsbD (j - lo) = false := fun h => BitVec.getLsbD_of_ge _ _ (by omega)
      by_cases hlo : lo ≤ j
      · simp [place, hv hlo]
      · simp [place, Nat.lt_of_not_le hlo]
  have e : (fixed ||| place lo v) &&& mask = (fixed &&& mask) ||| (place lo v &&& mask) := by
    apply BitVec.eq_of_getLsbD_eq
    intro j hj
    simp [Bool.and_or_distrib_right]
  rw [e, h, hf]
  simp

/-- The same with two operands. -/
theorem and_or_place_place (fixed mask : Word) (lo k lo' k' : Nat) (v : BitVec k) (v' : BitVec k')
    (hf : fixed &&& mask = fixed) (hm : ∀ j < 32, lo ≤ j → j < lo + k → mask.getLsbD j = false)
    (hm' : ∀ j < 32, lo' ≤ j → j < lo' + k' → mask.getLsbD j = false) :
    (fixed ||| place lo v ||| place lo' v') &&& mask = fixed := by
  have h := and_or_place fixed mask lo k v hf hm
  have h' := and_or_place fixed mask lo' k' v' hf hm'
  have e : (fixed ||| place lo v ||| place lo' v') &&& mask
      = ((fixed ||| place lo v) &&& mask) ||| ((fixed ||| place lo' v') &&& mask) := by
    apply BitVec.eq_of_getLsbD_eq
    intro j hj
    simp only [BitVec.getLsbD_and, BitVec.getLsbD_or]
    cases fixed.getLsbD j <;> cases (place lo v).getLsbD j <;> cases (place lo' v').getLsbD j <;>
      cases mask.getLsbD j <;> rfl
  rw [e, h, h']
  simp

theorem nop : Statement .nop := by unfold Statement; decide
theorem clr : Statement .clr := by unfold Statement; decide
theorem freqWr (sym : Sym) (cnt : Count) : Statement (.freqWr sym cnt) :=
  and_or_place_place 0x20000000 0xFF000000 16 8 0 16 sym cnt (by decide) (by decide) (by decide)
theorem freqInc (sym : Sym) : Statement (.freqInc sym) :=
  and_or_place 0x30000000 0xFFFFFF00 0 8 sym (by decide) (by decide)
theorem freqRd (sym : Sym) : Statement (.freqRd sym) :=
  and_or_place 0x40000000 0xFFFFFF00 0 8 sym (by decide) (by decide)
theorem build : Statement .build := by unfold Statement; decide
theorem codeRd (sym : Sym) (widx : BitVec 4) : Statement (.codeRd sym widx) :=
  and_or_place_place 0x60000000 0xFFFFF000 8 4 0 8 widx sym (by decide) (by decide) (by decide)
theorem encSym (sym : Sym) : Statement (.encSym sym) :=
  and_or_place 0x70000000 0xFFFFFF00 0 8 sym (by decide) (by decide)
theorem packBits (n : BitVec 5) (bits : BitVec 16) : Statement (.packBits n bits) :=
  and_or_place_place 0x80000000 0xFFE00000 16 5 0 16 n bits (by decide) (by decide) (by decide)
theorem packFlush : Statement .packFlush := by unfold Statement; decide
theorem packClr : Statement .packClr := by unfold Statement; decide
theorem statRd (reg : BitVec 4) : Statement (.statRd reg) :=
  and_or_place 0xB0000000 0xFFFFFFF0 0 4 reg (by decide) (by decide)

end Sys2Proof.Laws.RowOfWord
end

