-- ==== Sys2Proof/Machine/Assembler.lean ====
section
/-! DEFINITION. The assembler syntax and the pseudo-commands of spec/30_encoding.md R99 and R100: one
command a line, from its text to the command words the host presents. -/

namespace Sys2Proof.Machine.Asm

/-- The character that opens and closes a text or a bit-string. -/
def doubleQuote : Char := Char.ofNat 34

/-- The character that opens and closes a quoted symbol. -/
def singleQuote : Char := Char.ofNat 39

/-- Whether a line is inside quotes after one more character. -/
def nextQuote : Option Char → Char → Option Char
  | none, c => if c = doubleQuote ∨ c = singleQuote then some c else none
  | some q, c => if c = q then none else some q

/-- A line without its comment: a `;` outside quotes starts one (R99). -/
def uncomment : Option Char → List Char → List Char
  | _, [] => []
  | q, c :: cs => if q = none ∧ c = ';' then [] else c :: uncomment (nextQuote q c) cs

/-- The pieces between the commas that stand outside quotes. -/
def splitCommas : Option Char → List Char → List (List Char)
  | _, [] => [[]]
  | q, c :: cs =>
    if q = none ∧ c = ',' then [] :: splitCommas none cs
    else
      match splitCommas (nextQuote q c) cs with
      | [] => [[c]]
      | p :: ps => (c :: p) :: ps

/-- A space or a tab. -/
def blank (c : Char) : Bool := c = ' ' || c = '\t'

/-- Text without the blanks around it. -/
def trim (cs : List Char) : List Char := ((cs.dropWhile blank).reverse.dropWhile blank).reverse

/-- The value of a hexadecimal digit; the decimal digits are those below ten. -/
def digit (c : Char) : Option Nat :=
  if 48 ≤ c.toNat ∧ c.toNat ≤ 57 then some (c.toNat - 48)
  else if 97 ≤ c.toNat ∧ c.toNat ≤ 102 then some (c.toNat - 87)
  else if 65 ≤ c.toNat ∧ c.toNat ≤ 70 then some (c.toNat - 55)
  else none

/-- The number a digit string spells in a base, `v` being what stands to its left. -/
def digits (base : Nat) : Nat → List Char → Option Nat
  | v, [] => some v
  | v, c :: cs =>
    match digit c with
    | some d => if d < base then digits base (v * base + d) cs else none
    | none => none

/-- A decimal or hexadecimal number (R99). -/
def number : List Char → Option Nat
  | [] => none
  | '0' :: 'x' :: c :: cs => digits 16 0 (c :: cs)
  | cs => digits 10 0 cs

/-- A number that fits the `k` bits of its operand field. -/
def fit (k : Nat) (v : Nat) : Option (BitVec k) := if v < 2 ^ k then some (BitVec.ofNat k v) else none

/-- An ASCII character as a symbol (R99). -/
def charSym (c : Char) : Option Sym := if c.toNat < 128 then some (BitVec.ofNat 8 c.toNat) else none

/-- A `sym` operand: a number or a quoted ASCII character (R99). -/
def symOperand (cs : List Char) : Option Sym :=
  match cs with
  | [a, c, b] => if a = singleQuote ∧ b = singleQuote then charSym c else (number cs).bind (fit 8)
  | _ => (number cs).bind (fit 8)

/-- What stands between double quotes. -/
def quoted (cs : List Char) : Option (List Char) :=
  match cs with
  | [] => none
  | c :: rest =>
    if c = doubleQuote ∧ rest.getLast? = some doubleQuote then some rest.dropLast else none

/-- A bit-string in double quotes (R99, R100). -/
def bitStringOperand (cs : List Char) : Option BitString :=
  (quoted cs).bind fun bs =>
    bs.mapM fun c => if c = '0' then some false else if c = '1' then some true else none

/-- A `bits` operand of `n` bits: a number, or a quoted bit-string of `n` bits (R99). -/
def bitsOperand (n : Nat) (cs : List Char) : Option (BitVec 16) :=
  match bitStringOperand cs with
  | some bs => if bs.length = n then fit 16 (natOfBits bs) else none
  | none => (number cs).bind (fit 16)

/-- A text in double quotes, as its ASCII bytes (R100). -/
def textOperand (cs : List Char) : Option (List Sym) := (quoted cs).bind fun t => t.mapM charSym

/-- The register names of R99. -/
def regNames : List (List Char × Nat) :=
  [("ID".toList, 0), ("STATUS".toList, 1), ("ERR".toList, 2), ("NSYM".toList, 3), ("TOTAL".toList, 4),
   ("BYTECNT".toList, 5), ("TRAIL".toList, 6)]

/-- A `reg` operand: a number or a register name (R99). -/
def regOperand (cs : List Char) : Option (BitVec 4) :=
  match regNames.lookup cs with
  | some r => fit 4 r
  | none => (number cs).bind (fit 4)

/-- The commands that take no operand. -/
def plain (m : List Char) : Option Instr :=
  [("NOP".toList, Instr.nop), ("CLR".toList, .clr), ("BUILD".toList, .build),
   ("PACK_FLUSH".toList, .packFlush), ("PACK_CLR".toList, .packClr), ("PACK_NEW".toList, packNew)].lookup m

/-- The commands and pseudo-commands that take one operand. -/
def unary (m a : List Char) : Option (List Instr) :=
  if m = "FREQ_INC".toList then (symOperand a).map fun s => [.freqInc s]
  else if m = "FREQ_RD".toList then (symOperand a).map fun s => [.freqRd s]
  else if m = "ENC_SYM".toList then (symOperand a).map fun s => [.encSym s]
  else if m = "STAT_RD".toList then (regOperand a).map fun r => [.statRd r]
  else if m = "FREQ_DEL".toList then (symOperand a).map fun s => [freqDel s]
  else if m = "FREQ_TEXT".toList then (textOperand a).map freqText
  else if m = "ENC_TEXT".toList then (textOperand a).map encText
  else if m = "PACK_STR".toList then (bitStringOperand a).map packStr
  else none

/-- The commands that take two operands, in the order R99 lists them. -/
def binary (m a b : List Char) : Option Instr :=
  if m = "FREQ_WR".toList then
    (symOperand a).bind fun s => ((number b).bind (fit 16)).map fun c => .freqWr s c
  else if m = "CODE_RD".toList then
    (symOperand a).bind fun s => ((number b).bind (fit 4)).map fun w => .codeRd s w
  else if m = "PACK_BITS".toList then
    ((number a).bind (fit 5)).bind fun n => (bitsOperand n.toNat b).map fun bs => .packBits n bs
  else none

/-- The commands a mnemonic and its operands stand for. -/
def command (m : List Char) (ops : List (List Char)) : Option (List Instr) :=
  match ops with
  | [[]] => (plain m).map fun i => [i]
  | [a] => unary m a
  | [a, b] => (binary m a b).map fun i => [i]
  | _ => none

/-- The commands of one line; none where the line is not of R99's form. -/
def line (l : String) : Option (List Instr) :=
  let cs := trim (uncomment none l.toList)
  if cs = [] then some []
  else
    command (cs.takeWhile fun c => !blank c)
      ((splitCommas none (trim (cs.dropWhile fun c => !blank c))).map trim)

/-- The command words of a program, one line each, first to last (R46, R99). -/
def program (ls : List String) : Option (List Word) :=
  (ls.mapM line).map fun iss => iss.flatten.map encode

end Sys2Proof.Machine.Asm
end

