-- ==== Sys2Proof/Tests/Slice0.lean ====
section
/-! SUPPORT. The model's own tests, their expected values taken from spec/95_test_vectors.md (the vector is
named at each test) or from the rule named there, and for every statement that has hypotheses a state and
operands that meet them. -/

namespace Sys2Proof.Tests

open Sys2Proof.Machine

-- Many small evaluations in one file: elaborate them one after another, not one thread each.
set_option Elab.async false

-- ======================================================= helpers

/-- The response of an answer. -/
def rspOf : Answer → Option Response
  | .next t => t.rsp
  | .fault _ => none
  | .refused _ => none

/-- The bytes of an answer. -/
def outOf : Answer → Option (List Byte)
  | .next t => some t.out
  | .fault _ => none
  | .refused _ => none

/-- A view of the block of an answer. -/
def seen {α : Type} (f : Block → α) : Answer → Option α
  | .next t => some (f t.block)
  | .fault _ => none
  | .refused _ => none

/-- An answer is a next state that passes a check. -/
def ends (p : State → Bool) : Answer → Bool
  | .next t => p t
  | .fault _ => false
  | .refused _ => false

/-- A check for a success response. -/
def succeededState (t : State) : Bool := t.rsp.any fun r => r.rc == 0

theorem next_of_ends {p : State → Bool} {a : Answer} (h : ends p a = true) :
    ∃ t, a = .next t ∧ p t = true := by
  cases a with
  | next t => exact ⟨t, rfl, h⟩
  | fault f => cases h
  | refused r => cases h

theorem response_of_ends {a : Answer} (h : ends succeededState a = true) :
    ∃ t r, a = .next t ∧ t.rsp = some r ∧ r.rc = 0 := by
  obtain ⟨t, ha, ht⟩ := next_of_ends h
  obtain ⟨r, hr, h0⟩ := (Option.any_eq_true _ _).1 ht
  exact ⟨t, r, ha, hr, by simpa using h0⟩

/-- A machine with this block and nothing on its ports. -/
def holding (b : Block) : State := { State.reset with block := b }

/-- The frequency table with these counts. -/
def counts (l : List (Sym × Count)) : Table Count :=
  l.foldl (fun t sc => Table.set t sc.1 sc.2) Block.reset.freq

/-- The reset block with these counts. -/
def tabled (l : List (Sym × Count)) : Block := { Block.reset with freq := counts l }

/-- The block after a `BUILD` of these counts. -/
def built (l : List (Sym × Count)) : Block := (tabled l).writeCodes

/-- The counts of "abracadabra" (V1). -/
def v1 : List (Sym × Count) := [(0x61, 5), (0x62, 2), (0x63, 1), (0x64, 1), (0x72, 2)]

/-- The text "abracadabra" (V1). -/
def abracadabra : List Sym := [0x61, 0x62, 0x72, 0x61, 0x63, 0x61, 0x64, 0x61, 0x62, 0x72, 0x61]

/-- A machine whose code ROM holds the longest code there can be, 254 bits (R23), for one symbol. -/
def longest : State :=
  holding { Block.reset with
    ready := true, code := Table.set Block.reset.code 0x41 (some (List.replicate 254 true)) }

/-- A machine with this packer. -/
def packing (p : Packer) : State := holding { Block.reset with packer := p }

/-- An open packer. -/
def openPacker (acc : BitVec 8) (nb : BitVec 3) (byteCnt : BitVec 32) : Packer :=
  { acc := acc, nb := nb, byteCnt := byteCnt, trail := 0, closed := false }

/-- A packer after the flush of a 25-bit payload (P3, step 7). -/
def closedPacker : Packer := { acc := 0, nb := 0, byteCnt := 4, trail := 1, closed := true }

/-- A built one-symbol table with this packer. -/
def encoding (p : Packer) : State := holding { built [(0x41, 1)] with packer := p }

-- ======================================================= well-formedness (R94)

theorem test_widx_nine_is_ill_formed : (Instr.codeRd 0x41 9).wellFormed = false := by decide
theorem test_widx_eight_is_well_formed : (Instr.codeRd 0x41 8).wellFormed = true := by decide
theorem test_no_literal_bits_is_ill_formed : (Instr.packBits 0 0).wellFormed = false := by decide
theorem test_seventeen_literal_bits_is_ill_formed : (Instr.packBits 17 0).wellFormed = false := by decide
theorem test_bit_above_the_literal_is_ill_formed : (Instr.packBits 3 8).wellFormed = false := by decide
theorem test_sixteen_literal_bits_is_well_formed : (Instr.packBits 16 0xFFFF).wellFormed = true := by
  decide
theorem test_register_seven_is_ill_formed : (Instr.statRd 7).wellFormed = false := by decide
theorem test_register_six_is_well_formed : (Instr.statRd 6).wellFormed = true := by decide

-- ======================================================= decoding: words written out from R82 and R90

theorem test_decode_nop : decode 0b0000_0000000000000000000000000000 = .ok .nop := by decide
theorem test_decode_clr : decode 0b0001_0000000000000000000000000000 = .ok .clr := by decide
/-- OP 2, four zeros, SYM 0x61, CNT 5 (F1). -/
theorem test_decode_freqWr : decode 0b0010_0000_01100001_0000000000000101 = .ok (.freqWr 0x61 5) := by
  decide
theorem test_decode_freqInc : decode 0b0011_00000000000000000000_01100001 = .ok (.freqInc 0x61) := by
  decide
theorem test_decode_freqRd : decode 0b0100_00000000000000000000_11111111 = .ok (.freqRd 0xFF) := by decide
theorem test_decode_build : decode 0b0101_0000000000000000000000000000 = .ok .build := by decide
/-- OP 6, sixteen zeros, WIDX 1, SYM 0x62 (C2). -/
theorem test_decode_codeRd : decode 0b0110_0000000000000000_0001_01100010 = .ok (.codeRd 0x62 1) := by
  decide
theorem test_decode_encSym : decode 0b0111_00000000000000000000_01111010 = .ok (.encSym 0x7A) := by decide
/-- OP 8, seven zeros, N 5, BITS 10101 (K20). -/
theorem test_decode_packBits :
    decode 0b1000_0000000_00101_0000000000010101 = .ok (.packBits 5 0x15) := by decide
theorem test_decode_packFlush : decode 0b1001_0000000000000000000000000000 = .ok .packFlush := by decide
theorem test_decode_packClr : decode 0b1010_0000000000000000000000000000 = .ok .packClr := by decide
theorem test_decode_statRd : decode 0b1011_000000000000000000000000_0110 = .ok (.statRd 6) := by decide

/-- X1, X2: the reserved opcodes. -/
theorem test_reserved_opcodes_are_illegal :
    decode 0xC0000000 = .error .reservedOpcode ∧ decode 0xD1234567 = .error .reservedOpcode ∧
      decode 0xE0000000 = .error .reservedOpcode ∧ decode 0xFFFFFFFF = .error .reservedOpcode := by decide
/-- X3 to X7, X12, X13: a 1 in a must-be-zero bit. -/
theorem test_must_be_zero_bits_are_illegal :
    decode 0x00000001 = .error .mustBeZero ∧ decode 0x10000001 = .error .mustBeZero ∧
      decode 0x50000100 = .error .mustBeZero ∧ decode 0x98000000 = .error .mustBeZero ∧
      decode 0xA0000001 = .error .mustBeZero ∧ decode 0x21410003 = .error .mustBeZero ∧
      decode 0x30000100 = .error .mustBeZero ∧ decode 0x40000100 = .error .mustBeZero ∧
      decode 0x70000100 = .error .mustBeZero ∧ decode 0x60001041 = .error .mustBeZero ∧
      decode 0x80200001 = .error .mustBeZero ∧ decode 0xB0000010 = .error .mustBeZero := by decide
/-- X8 to X11, X13: an operand out of range. -/
theorem test_operand_ranges_are_checked :
    decode 0x60000941 = .error .widxRange ∧ decode 0x80000000 = .error .bitCountRange ∧
      decode 0x80110000 = .error .bitCountRange ∧ decode 0x80030008 = .error .bitsAboveCount ∧
      decode 0xB0000007 = .error .regRange ∧ decode 0xB000000F = .error .regRange := by decide
theorem test_table_word_decodes : decodeTableWord 32 0x20610005 = some (.freqWr 0x61 5) := by decide
theorem test_table_word_of_no_command : decodeTableWord 32 0x80000000 = none := by decide

-- ======================================================= the step

/-- F1 through the `cmd` port. -/
theorem test_step_runs_the_presented_word :
    rspOf (step (State.reset.withFetchWord 32 0x20610005)) = some ⟨0, 0⟩ ∧
      seen (fun b => Table.get b.freq 0x61) (step (State.reset.withFetchWord 32 0x20610005)) = some 5 := by
  decide +kernel
/-- X5: an illegal word writes nothing but `ERR[5]`. -/
theorem test_step_of_an_illegal_word :
    rspOf (step (State.reset.withFetchWord 32 0x21410003)) = some ⟨5, 0⟩ ∧
      seen (fun b => (b.err, Table.get b.freq 0x41)) (step (State.reset.withFetchWord 32 0x21410003)) =
        some (0x0020, 0) := by decide +kernel
/-- R260: a reset event. -/
theorem test_step_of_a_reset_event :
    seen (fun b => (b.packer, b.err)) (step ((packing closedPacker).present .reset)) =
      some (Packer.reset, 0) := by decide +kernel

-- ======================================================= frequency family

/-- F8: writing the value already stored still invalidates. -/
theorem test_freqWr_invalidates :
    seen (fun b => (b.ready, b.nsym, b.total, Table.get b.code 0x61, Table.get b.freq 0x61))
      (exec (.freqWr 0x61 5) (holding (built [(0x61, 5)]))) = some (false, 0, 0, none, 5) := by
  decide +kernel
/-- F6: up to 65535 the count goes on. -/
theorem test_freqInc_reaches_65535 :
    seen (fun b => Table.get b.freq 0x61) (exec (.freqInc 0x61) (holding (tabled [(0x61, 65534)]))) =
      some 65535 := by decide +kernel
/-- F7: at 65535 it faults, and the built table is kept. -/
theorem test_freqInc_overflows :
    rspOf (exec (.freqInc 0x61) (holding (built [(0x61, 65535)]))) = some ⟨2, 1⟩ ∧
      seen (fun b => (b.err, b.ready, b.nsym, b.total, Table.get b.freq 0x61))
        (exec (.freqInc 0x61) (holding (built [(0x61, 65535)]))) = some (4, true, 1, 65535, 65535) := by
  decide +kernel
/-- F3, F4: a present and an absent symbol. -/
theorem test_freqRd_answers_the_count :
    rspOf (exec (.freqRd 0x61) (holding (tabled [(0x61, 5)]))) = some ⟨0, 5⟩ ∧
      rspOf (exec (.freqRd 0xFF) (holding (tabled [(0x61, 5)]))) = some ⟨0, 0⟩ := by decide +kernel

-- ======================================================= BUILD

/-- V1: the five codes of "abracadabra"; B8: leaves are merged before an internal node of equal weight. -/
theorem test_build_codes :
    rspOf (exec .build (holding (tabled v1))) = some ⟨0, 5⟩ ∧
      seen (fun b => (b.nsym, b.total, b.ready)) (exec .build (holding (tabled v1))) =
        some (5, 11, true) ∧
      seen (fun b => [0x61, 0x62, 0x63, 0x64, 0x72, 0x7A].map (Table.get b.code))
        (exec .build (holding (tabled v1))) =
        some [some [false], some [true, true, false], some [true, false, false], some [true, false, true],
          some [true, true, true], none] ∧
      seen (fun b => [0x41, 0x42, 0x43, 0x44].map (Table.get b.code))
        (exec .build (holding (tabled [(0x41, 1), (0x42, 1), (0x43, 2), (0x44, 2)]))) =
        some [some [false, false], some [false, true], some [true, false], some [true, true]] := by
  decide +kernel
/-- B1 and B12: no symbol and 256 symbols. -/
theorem test_build_faults :
    rspOf (exec .build State.reset) = some ⟨1, 0⟩ ∧
      rspOf (exec .build (holding { Block.reset with freq := Vector.replicate 256 1 })) = some ⟨2, 0⟩ ∧
      seen (fun b => (b.err, b.ready))
        (exec .build (holding { Block.reset with freq := Vector.replicate 256 1 })) =
        some (4, false) := by decide +kernel

-- ======================================================= code ROM

/-- C1, C2, C3, C4: head word, first and second code word, an absent symbol. -/
theorem test_codeRd_words :
    [(.codeRd 0x62 0), (.codeRd 0x62 1), (.codeRd 0x62 8), (.codeRd 0x7A 0)].map
        (fun i => rspOf (exec i (holding (built v1)))) =
      [some ⟨0, 0x103⟩, some ⟨0, 0xC0000000⟩, some ⟨0, 0⟩, some ⟨0, 0⟩] := by decide +kernel
/-- R66: code bit 33 is bit 30 of word 2. -/
theorem test_codeRd_second_word :
    rspOf (exec (.codeRd 0 2) (holding
      { Block.reset with
        ready := true
        code := Table.set Block.reset.code 0 (some (List.replicate 33 false ++ [true])) })) =
      some ⟨0, 0x40000000⟩ := by decide +kernel
/-- C10: the fourth symbol of "abracadabra" completes the byte 6E. -/
theorem test_encSym_emits_a_byte :
    rspOf (exec (.encSym 0x61) (holding { built v1 with packer := openPacker 0x37 7 0 })) = some ⟨0, 1⟩ ∧
      outOf (exec (.encSym 0x61) (holding { built v1 with packer := openPacker 0x37 7 0 })) =
        some [0x6E] ∧
      seen Block.packer (exec (.encSym 0x61) (holding { built v1 with packer := openPacker 0x37 7 0 })) =
        some (openPacker 0 0 1) := by decide +kernel
/-- X15, X16, X17, K29: the four faults in their order. -/
theorem test_encSym_fault_order :
    rspOf (exec (.encSym 0x61) (packing closedPacker)) = some ⟨6, 0⟩ ∧
      rspOf (exec (.encSym 0x42) (encoding closedPacker)) = some ⟨7, 0⟩ ∧
      rspOf (exec (.encSym 0x41) (encoding closedPacker)) = some ⟨9, 0⟩ ∧
      rspOf (exec (.encSym 0x41) (encoding (openPacker 0x2B 7 0xFFFFFFFF))) = some ⟨8, 0⟩ := by
  decide +kernel

-- ======================================================= bit-packer

/-- K20's second command, and K21's word after one byte (P3, step 4). -/
theorem test_packBits_fills_bytes :
    outOf (exec (.packBits 5 0x15) (packing (openPacker 6 3 0))) = some [0xD5] ∧
      outOf (exec (.packBits 16 0xABCD) (packing (openPacker 0 0 1))) = some [0xAB, 0xCD] ∧
      seen Block.packer (exec (.packBits 16 0xABCD) (packing (openPacker 0 0 1))) =
        some (openPacker 0 0 3) := by decide +kernel
/-- K23, K24, K27, K28: the byte count at its limit. -/
theorem test_packBits_at_the_byte_limit :
    seen Block.packer (exec (.packBits 1 1) (packing (openPacker 0x15 6 0xFFFFFFFF))) =
        some (openPacker 0x2B 7 0xFFFFFFFF) ∧
      rspOf (exec (.packBits 1 1) (packing (openPacker 0x2B 7 0xFFFFFFFF))) = some ⟨8, 0⟩ ∧
      outOf (exec (.packBits 1 1) (packing (openPacker 0x7F 7 0xFFFFFFFE))) = some [0xFF] ∧
      rspOf (exec (.packBits 16 0xFFFF) (packing (openPacker 0 0 0xFFFFFFFE))) = some ⟨8, 0⟩ := by
  decide +kernel
/-- The flush of P1 (step 25), of K10 and of K1: a partial byte, a full one, none. -/
theorem test_packFlush_three_cases :
    [openPacker 0x6E 7 2, openPacker 0 0 1, openPacker 0 0 0].map
        (fun p => (rspOf (exec .packFlush (packing p)), outOf (exec .packFlush (packing p)))) =
      [(some ⟨0, 0xFE07⟩, some [0xDC]), (some ⟨0, 0xFF08⟩, some []), (some ⟨0, 0⟩, some [])] := by
  decide +kernel
/-- X19, K25, K26: a second flush, and the byte count at its limit. -/
theorem test_packFlush_faults :
    rspOf (exec .packFlush (packing closedPacker)) = some ⟨9, 0⟩ ∧
      rspOf (exec .packFlush (packing (openPacker 0x2B 7 0xFFFFFFFF))) = some ⟨8, 0⟩ ∧
      rspOf (exec .packFlush (packing (openPacker 0 0 0xFFFFFFFF))) = some ⟨0, 0xFF08⟩ := by decide +kernel
/-- K22, P3 step 12: the held bits are dropped. -/
theorem test_packClr_drops_the_bits :
    seen Block.packer (exec .packClr (packing (openPacker 6 3 0))) = some Packer.reset ∧
      outOf (exec .packClr (packing (openPacker 6 3 0))) = some [] := by decide +kernel

-- ======================================================= system

/-- S1. -/
theorem test_nop_changes_nothing :
    rspOf (exec .nop (packing closedPacker)) = some ⟨0, 0⟩ ∧
      seen Block.packer (exec .nop (packing closedPacker)) = some closedPacker := by decide +kernel
/-- S9. -/
theorem test_clr_clears :
    seen (fun b => (b.packer, b.err, b.ready))
        (exec .clr (holding { built [(0x41, 1)] with packer := closedPacker, err := 0x02E2 })) =
      some (Packer.reset, 0, false) ∧
    seen (fun b => (b.nsym, b.total, Table.get b.freq 0x41, Table.get b.code 0x41))
        (exec .clr (holding { built [(0x41, 1)] with packer := closedPacker, err := 0x02E2 })) =
      some (0, 0, 0, none) := by decide +kernel
/-- S5: the seven registers after P1. -/
theorem test_statRd_after_abracadabra :
    [0, 1, 2, 3, 4, 5, 6].map (fun r => rspOf (exec (.statRd r) (holding
        { Block.reset with
          ready := true
          nsym := 5
          total := 11
          packer := { acc := 0, nb := 0, byteCnt := 3, trail := 7, closed := true } }))) =
      [some ⟨0, 0x48474250⟩, some ⟨0, 3⟩, some ⟨0, 0⟩, some ⟨0, 5⟩, some ⟨0, 11⟩, some ⟨0, 3⟩,
        some ⟨0, 0xFE07⟩] := by decide +kernel
/-- S6, S7, S8. -/
theorem test_statRd_status_and_range :
    rspOf (exec (.statRd 1) (holding { Block.reset with ready := true, packer := openPacker 2 2 0 })) =
        some ⟨0, 0x21⟩ ∧
      rspOf (exec (.statRd 1) (holding
        { Block.reset with ready := true, err := 0x02C2, packer := closedPacker })) = some ⟨0, 7⟩ ∧
      rspOf (exec (.statRd 7) State.reset) = some ⟨5, 0⟩ := by decide +kernel

-- ======================================================= reference functions and assembler

/-- E5: the payload of "abracadabra" unpacks to its 23 bits. -/
theorem test_unpack_abracadabra :
    unpack [0x6E, 0x8A, 0xDC] 7 = byteBits 0x6E ++ byteBits 0x8A ++ (byteBits 0xDC).take 7 := by
  decide +kernel
/-- K16. -/
theorem test_pack_nine_bits :
    packBytes [true, false, true, true, false, false, true, true, true] = [0xB3, 0x80] ∧
      trailCount [true, false, true, true, false, false, true, true, true] = 1 := by decide +kernel
/-- R99's examples. -/
theorem test_assembler :
    Asm.program ["FREQ_WR 'a', 5 ; F1", "PACK_BITS 3, \"110\"", "STAT_RD TRAIL", "CODE_RD 0x62, 1"] =
      some [0x20610005, 0x80030006, 0xB0000006, 0x60000162] := by decide +kernel

-- ======================================================= witnesses: the hypotheses of each statement are met

/-- 255 present symbols, the most a `BUILD` accepts (B15). -/
def most : Table Count := Table.set (Vector.replicate 256 1) 0xFF 0

/-- All 256 symbols present (B12). -/
def allPresent : Block := { Block.reset with freq := Vector.replicate 256 1 }

/-- A session that ended, every response a success. -/
def good (o : Option Transcript) : Bool :=
  match o with
  | none => false
  | some r => r.rsps.all fun x => x.rc == 0

theorem session_of_good {o : Option Transcript} (h : good o = true) : ∃ r, o = some r ∧ r.succeeded := by
  cases o with
  | none => cases h
  | some r =>
    refine ⟨r, rfl, fun x hx => ?_⟩
    simp only [good, List.all_eq_true] at h
    exact by simpa using h x hx

/-- What the invariant asks of the table a `BUILD` of these counts writes (R27, R141), as a check. -/
abbrev Sound (l : List (Sym × Count)) : Prop :=
  (1 ≤ distinct (counts l) ∧ distinct (counts l) ≤ Config.nsymMax ∧
    (built l).nsym.toNat = distinct (counts l) ∧ (built l).total.toNat = totalCount (counts l)) ∧
  (∀ x, (Table.get (built l).code x).isSome = true ↔ Table.get (counts l) x ≠ 0) ∧
  ∀ x, (Table.get (built l).code x).all
    (fun bits => decide (1 ≤ bits.length ∧ bits.length ≤ Config.lenMax)) = true

/-- A state a run reaches, built and with a packer that meets its invariant, meets the invariant. -/
theorem built_inv {l : List (Sym × Count)} (h : Sound l) {p : Packer} (hp : p.Inv) :
    (holding { built l with packer := p }).Inv where
  block :=
    { packer := hp
      err_bits := show (0 : BitVec 16) &&& errReserved = 0 by decide
      unbuilt := fun hr => Bool.noConfusion hr
      built := fun _ => ⟨h.1.1, h.1.2.1, h.1.2.2.1, h.1.2.2.2, rfl⟩
      code_present := fun _ => h.2.1
      code_len := fun x bits hx => by
        have hx : Table.get (built l).code x = some bits := hx
        have hb := h.2.2 x
        rw [hx] at hb
        exact of_decide_eq_true hb }
  rsp := fun r hr => by cases hr

theorem encoding_inv (p : Packer) (hp : p.Inv) : (encoding p).Inv :=
  built_inv (l := [(0x41, 1)]) (by decide +kernel) hp

theorem reset_packer_inv : Packer.reset.Inv :=
  ⟨by decide, by decide, by decide, by decide, by decide⟩

theorem test_witness_DecodeOfEncodeIsTheCommand :
    (Instr.packBits 16 0xFFFF).wellFormed = true ∧ (Instr.codeRd 0xFF 8).wellFormed = true ∧
      (Instr.statRd 6).wellFormed = true := by decide

theorem test_witness_EncodeOfDecodedIsTheWord : decode 0x8010FFFF = .ok (.packBits 16 0xFFFF) := by decide

theorem test_witness_AtMostOneRowMatchesAWord :
    (Instr.packBits 0 0).row ∈ opcodeTable ∧ (Instr.packBits 0 0).row.selects 0x8010FFFF := by decide

theorem test_witness_StepRunsTheDecodedCommand :
    (State.reset.withFetchWord 32 0x50000000).pending = .command 0x50000000 :: [] ∧
      decode 0x50000000 = .ok .build := by decide

theorem test_witness_EveryWordIsACommandOrIllegal :
    (State.reset.withFetchWord 32 0xC0000000).pending = .command 0xC0000000 :: [] := by decide

theorem test_witness_ResetEventResetsTheBlock :
    ((packing closedPacker).present .reset).pending = .reset :: [] := rfl

theorem test_witness_IdleStepKeepsTheState : (packing closedPacker).pending = [] := rfl

theorem test_witness_EveryCommandEndsWithALegalResponse :
    (State.reset.withFetchWord 32 0x00000000).pending = .command 0x00000000 :: [] := by decide

theorem test_witness_WordsRunAsTheirCommands :
    ∀ i ∈ [Instr.packBits 16 0xFFFF, .codeRd 0 8, .statRd 6], i.wellFormed = true := by decide

theorem test_witness_ResetStateIsAllZero : (0 : BitVec 4).toNat ≤ 6 ∧ (6 : BitVec 4).toNat ≤ 6 := by decide

/-- A built state and the word of `NOP` presented to it. -/
theorem test_witness_StepKeepsTheInvariant :
    ∃ t, ((encoding Packer.reset).withFetchWord 32 0x00000000).Inv ∧
      step ((encoding Packer.reset).withFetchWord 32 0x00000000) = .next t :=
  ⟨_, ⟨(encoding_inv _ reset_packer_inv).block, fun r h => by cases h⟩, rfl⟩

/-- A reserved word faults (X1); a `NOP` follows. -/
theorem test_witness_FaultsArePrecise :
    (State.reset.withFetchWord 32 0xC0000000).pending = .command 0xC0000000 :: [] ∧
      (∃ t r, step (State.reset.withFetchWord 32 0xC0000000) = .next t ∧ t.rsp = some r ∧ r.rc ≠ 0 ∧
        ∃ u, step (t.present (.command 0)) = .next u) ∧
      (0 : Word) ≠ encode (.statRd 1) ∧ (0 : Word) ≠ encode (.statRd 2) ∧
      ∃ u' b, step ((State.reset.succeeded Block.reset 0 []).present (.command 0)) = .next u' ∧
        u'.rsp = some b :=
  ⟨by decide, ⟨_, _, rfl, rfl, by decide, _, rfl⟩, by decide, by decide, _, _, rfl, rfl⟩

theorem test_witness_ErrRecordsEveryFault :
    (State.reset.withFetchWord 32 0xC0000000).pending = .command 0xC0000000 :: [] ∧
      (∃ t r, step (State.reset.withFetchWord 32 0xC0000000) = .next t ∧ t.rsp = some r) ∧
      (State.reset.withFetchWord 32 0xC0000000).block.err &&& 0xFC19#16 = 0 ∧
      (State.reset.present .reset).pending = .reset :: [] ∧
      ∃ t, step (State.reset.present .reset) = .next t :=
  ⟨by decide, ⟨_, _, rfl, rfl⟩, by decide, rfl, _, rfl⟩

theorem test_witness_RecordedFaultsChangeNoResult :
    Instr.encSym 0x41 ≠ .statRd 1 ∧ Instr.encSym 0x41 ≠ .statRd 2 ∧
      ∃ t, exec (.encSym 0x41) (encoding Packer.reset) = .next t := ⟨by decide, by decide, _, rfl⟩

/-- A state for each clause: a write of each field, and a byte emitted. -/
theorem test_witness_EachFieldIsWrittenOnlyByItsCommands :
    (∃ t, exec (.freqWr 0x41 1) State.reset = .next t ∧ Table.get t.block.freq 0x41 = 1) ∧
    (∃ t, exec .build (holding (tabled [(0x41, 1)])) = .next t ∧ (t.block.ready == true) = true) ∧
    (∃ t, exec .packFlush State.reset = .next t ∧ t.block.packer.closed = true) ∧
    (∃ t, exec (.packBits 8 0xFF) State.reset = .next t ∧ t.out ≠ []) ∧
    (∃ t, exec .build State.reset = .next t ∧ t.block.err ≠ State.reset.block.err) :=
  ⟨⟨_, rfl, by decide +kernel⟩,
    next_of_ends (p := fun t => t.block.ready == true) (by decide +kernel),
    ⟨_, rfl, by decide +kernel⟩, ⟨_, rfl, by decide +kernel⟩, ⟨_, rfl, by decide +kernel⟩⟩

theorem test_witness_FreqIncCountsOrOverflows :
    (Table.get (holding (tabled [(0x61, 65535)])).block.freq 0x61).toNat = 65535 ∧
      (Table.get (holding (tabled [(0x61, 65534)])).block.freq 0x61).toNat < 65535 := by decide +kernel

/-- A text of two symbols that takes one count to 65535. -/
theorem test_witness_FreqTextCountsTheText :
    ∀ x, (Table.get (holding (tabled [(0x61, 65534)])).block.freq x).toNat +
      [(0x61 : Sym), 0x62].count x ≤ 65535 := by decide +kernel

theorem test_witness_LookupsFaultAfterAFrequencyWrite :
    (∃ t, exec (.freqWr 0x41 1) State.reset = .next t ∧ ∃ r, runInstrs [.nop] t = some r) ∧
      .build ∉ [Instr.nop] ∧
      (Table.get (holding (tabled [(0x61, 65534)])).block.freq 0x61).toNat < 65535 ∧
      (∃ t, exec (.freqInc 0x61) (holding (tabled [(0x61, 65534)])) = .next t) ∧
      (8 : BitVec 4).toNat ≤ 8 :=
  ⟨⟨_, rfl, _, rfl⟩, by decide, by decide +kernel, ⟨_, rfl⟩, by decide⟩

theorem test_witness_ReadyFollowsBuildsAndFrequencyWrites :
    (∃ t r, exec .build (holding (tabled [(0x41, 1)])) = .next t ∧ t.rsp = some r ∧ r.rc = 0) ∧
      ((encoding closedPacker).present .reset).pending = .reset :: [] ∧
      (∃ t, step ((encoding closedPacker).present .reset) = .next t) ∧
      decode 0xC0000000 = .error .reservedOpcode ∧
      ∃ t, step ((encoding closedPacker).present (.command 0xC0000000)) = .next t :=
  ⟨response_of_ends (by decide +kernel), rfl, ⟨_, rfl⟩, by decide, _, rfl⟩

theorem test_witness_ScanAndItsFaults :
    (scan State.reset.block.freq).length = 0 ∧ (scan (holding allPresent).block.freq).length = 256 := by
  decide +kernel

theorem test_witness_LeavesFollowTheScan :
    (scan (counts v1))[0]? = some 0x61 ∧ (scan (counts v1))[4]? = some 0x72 := by decide +kernel

/-- The queue of V1 before its second pass. -/
theorem test_witness_LowestKeyIsPoppedFirst :
    (([⟨5, 0, .leaf 0x61⟩, ⟨2, 1, .leaf 0x62⟩, ⟨2, 4, .leaf 0x72⟩,
      ⟨2, 5, .node (.leaf 0x63) (.leaf 0x64)⟩] : List QNode).map QNode.index).Nodup := by decide

/-- The last pass of V1. -/
theorem test_witness_FirstPoppedIsTheLeftChild :
    popLowest ⟨6, 7, .leaf 0x62⟩ ((⟨5, 0, .leaf 0x61⟩ : QNode) :: []) =
        (⟨5, 0, .leaf 0x61⟩, ⟨6, 7, .leaf 0x62⟩ :: []) ∧
      popLowest ⟨6, 7, .leaf 0x62⟩ [] = (⟨6, 7, .leaf 0x62⟩, []) ∧
      (([⟨6, 7, .leaf 0x62⟩, ⟨5, 0, .leaf 0x61⟩] : List QNode).map QNode.index).Nodup := by decide

theorem test_witness_RootHoldsAllPresentSymbols :
    1 ≤ distinct (counts [(0x41, 1)]) ∧ distinct most = 255 := by decide +kernel

theorem test_witness_CodesAreRootToLeafPaths :
    2 ≤ distinct (counts v1) ∧ distinct most = 255 ∧ (rootOf (counts v1)).isSome = true ∧
      Table.get (counts v1) 0x61 ≠ 0 ∧ ends succeededState (exec .build (holding (tabled v1))) = true := by
  decide +kernel

/-- R137: 0 turns left, 1 turns right, and no bits are left over at a leaf. -/
theorem test_walk_turns_left_on_zero_right_on_one :
    Machine.Tree.walk (.node (.leaf 0x61) (.node (.leaf 0x62) (.leaf 0x63))) [true, false] =
        some (.leaf 0x62) ∧
      Machine.Tree.walk (.node (.leaf 0x61) (.leaf 0x62)) [false] = some (.leaf 0x61) ∧
      Machine.Tree.walk (.leaf 0x61) [false] = none := by decide

theorem test_witness_SingleSymbolGetsTheCodeZero :
    distinct (holding (tabled [(0x41, 1)])).block.freq = 1 ∧
      Table.get (holding (tabled [(0x41, 1)])).block.freq 0x41 ≠ 0 ∧
      ends succeededState (exec .build (holding (tabled [(0x41, 1)]))) = true := by decide +kernel

theorem test_witness_BuildWritesTheCodeTable :
    distinct (holding (tabled [(0x41, 1)])).block.freq = 1 ∧
      distinct (holding { Block.reset with freq := most }).block.freq = 255 := by decide +kernel

theorem test_witness_CodesArePrefixFree :
    (0x41 : Sym) ≠ 0x42 ∧
      Table.get (codeTable (counts [(0x41, 1), (0x42, 1)])) 0x41 = some [false] ∧
      Table.get (codeTable (counts [(0x41, 1), (0x42, 1)])) 0x42 = some [true] := by decide +kernel

theorem test_witness_CodeLengthsAreBounded :
    (Table.get (codeTable (counts [(0x41, 1)])) 0x41 = some [false] ∧ distinct (counts [(0x41, 1)]) = 1) ∧
      Table.get (codeTable (counts [(0x41, 1), (0x42, 1)])) 0x42 = some [true] ∧
      distinct (counts [(0x41, 1), (0x42, 1)]) = 2 := by decide +kernel

theorem test_witness_CodesMeetKraftEquality :
    distinct (counts [(0x41, 1), (0x42, 1)]) = 2 ∧ distinct most = 255 := by decide +kernel

theorem test_witness_SecondBuildChangesNothing :
    (encoding Packer.reset).Inv ∧ (encoding Packer.reset).block.ready = true :=
  ⟨encoding_inv _ reset_packer_inv, rfl⟩

theorem test_witness_BuildDependsOnFrequenciesOnly :
    (holding (tabled [(0x41, 1)])).block.freq = (encoding closedPacker).block.freq ∧
      ends succeededState (exec .build (holding (tabled [(0x41, 1)]))) = true ∧
      ends succeededState (exec .build (encoding closedPacker)) = true ∧
      distinct (counts [(0x41, 1)]) = 1 :=
  ⟨rfl, by decide +kernel, by decide +kernel, by decide +kernel⟩

/-- "abracadabra" and the table counted from it (V1). -/
theorem test_witness_CountedTextHasTheSummedLength :
    (holding (built v1)).Inv ∧ (holding (built v1)).block.ready = true ∧
      (holding (built v1)).block.packer = Packer.reset ∧
      ∀ x, abracadabra.count x = (Table.get (holding (built v1)).block.freq x).toNat :=
  ⟨built_inv (l := v1) (by decide +kernel) reset_packer_inv, rfl, rfl, by decide +kernel⟩

/-- A state for each clause, with `WIDX` at both ends of each range. -/
theorem test_witness_CodeRdReadsOneWord :
    9 ≤ (9 : BitVec 4).toNat ∧ (8 : BitVec 4).toNat ≤ 8 ∧ (0 : BitVec 4).toNat = 0 ∧
      1 ≤ (1 : BitVec 4).toNat ∧ State.reset.block.ready = false ∧
      (encoding Packer.reset).block.ready = true ∧
      Table.get (encoding Packer.reset).block.code 0x42 = none ∧
      Table.get (encoding Packer.reset).block.code 0x41 = some [false] ∧
      longest.block.ready = true ∧
      Table.get longest.block.code 0x41 = some (List.replicate 254 true) ∧
      (List.replicate 254 true).length ≤ 254 := by decide +kernel

/-- A state for each clause, the last two on both sides of the byte limit. -/
theorem test_witness_EncSymPushesTheCode :
    (packing closedPacker).block.ready = false ∧
    ((encoding closedPacker).block.ready = true ∧ Table.get (encoding closedPacker).block.code 0x42 = none) ∧
    (Table.get (encoding closedPacker).block.code 0x41 = some [false] ∧
      (encoding closedPacker).block.packer.closed = true) ∧
    (Table.get (encoding (openPacker 0x2B 7 0xFFFFFFFF)).block.code 0x41 = some [false] ∧
      (encoding (openPacker 0x2B 7 0xFFFFFFFF)).block.packer.closed = false ∧
      2 ^ 32 - 1 < (openPacker 0x2B 7 0xFFFFFFFF).byteCnt.toNat +
        ((openPacker 0x2B 7 0xFFFFFFFF).nb.toNat + [false].length) / 8) ∧
    (Table.get (encoding (openPacker 0x15 6 0xFFFFFFFF)).block.code 0x41 = some [false] ∧
      (encoding (openPacker 0x15 6 0xFFFFFFFF)).block.packer.closed = false ∧
      (openPacker 0x15 6 0xFFFFFFFF).byteCnt.toNat +
        ((openPacker 0x15 6 0xFFFFFFFF).nb.toNat + [false].length) / 8 ≤ 2 ^ 32 - 1) ∧
    (Table.get longest.block.code 0x41 = some (List.replicate 254 true) ∧
      longest.block.packer.closed = false ∧ (List.replicate 254 true).length ≤ 254) := by decide +kernel

theorem test_witness_PushBitsFillsBytesInOrder :
    (openPacker 0x15 6 0xFFFFFFFF).byteCnt.toNat +
        ((openPacker 0x15 6 0xFFFFFFFF).nb.toNat + [true].length) / 8 ≤ 2 ^ 32 - 1 ∧
      (openPacker 0x15 6 0xFFFFFFFF).acc.toNat < 2 ^ (openPacker 0x15 6 0xFFFFFFFF).nb.toNat := by decide

theorem test_witness_PackBitsPushesTheLiteral :
    (17 ≤ (17 : BitVec 5).toNat ∧ (8 : BitVec 16) >>> (3 : BitVec 5).toNat ≠ 0) ∧
    (1 ≤ (16 : BitVec 5).toNat ∧ (16 : BitVec 5).toNat ≤ 16 ∧
      (0xFFFF : BitVec 16) >>> (16 : BitVec 5).toNat = 0) ∧
    (packing closedPacker).block.packer.closed = true ∧
    (openPacker 0 0 0xFFFFFFFE).closed = false ∧
    2 ^ 32 - 1 < (openPacker 0 0 0xFFFFFFFE).byteCnt.toNat +
      ((openPacker 0 0 0xFFFFFFFE).nb.toNat + (16 : BitVec 5).toNat) / 8 ∧
    (openPacker 0 0 0xFFFFFFFD).byteCnt.toNat +
      ((openPacker 0 0 0xFFFFFFFD).nb.toNat + (16 : BitVec 5).toNat) / 8 ≤ 2 ^ 32 - 1 := by decide +kernel

/-- A state for each fault and for each of the three cases of the flush. -/
theorem test_witness_PackFlushClosesThePayload :
    (packing closedPacker).block.packer.closed = true ∧
      ((openPacker 0 1 0xFFFFFFFF).closed = false ∧ 0 < (openPacker 0 1 0xFFFFFFFF).nb.toNat ∧
        (openPacker 0 1 0xFFFFFFFF).byteCnt.toNat = 2 ^ 32 - 1) ∧
      (0 < (openPacker 1 1 0xFFFFFFFE).nb.toNat ∧ (openPacker 1 1 0xFFFFFFFE).byteCnt.toNat < 2 ^ 32 - 1) ∧
      ((openPacker 0 0 0xFFFFFFFF).nb = 0 ∧ 0 < (openPacker 0 0 0xFFFFFFFF).byteCnt.toNat) ∧
      ((openPacker 0 0 0).nb = 0 ∧ (openPacker 0 0 0).byteCnt.toNat = 0) := by decide

theorem test_witness_ClosedFollowsFlushAndClear :
    (∃ t r, exec .packFlush State.reset = .next t ∧ t.rsp = some r ∧ r.rc = 0) ∧
      (packing closedPacker).block.packer.closed = true ∧
      (∃ t r, exec (.packBits 1 1) (packing closedPacker) = .next t ∧ t.rsp = some r ∧
        pushes (.packBits 1 1) = true) ∧
      (∃ t, step ((packing closedPacker).present .reset) = .next t) ∧
      decode 0xC0000000 = .error .reservedOpcode ∧
      ∃ t, step ((packing closedPacker).present (.command 0xC0000000)) = .next t :=
  ⟨⟨_, _, rfl, rfl, by decide +kernel⟩, rfl, ⟨_, _, rfl, rfl, rfl⟩, ⟨_, rfl⟩, by decide, _, rfl⟩

theorem test_witness_PaddingBitsAreZero :
    ∃ t, exec .packFlush (packing (openPacker 1 1 0)) = .next t ∧ t.out = [0x80] :=
  ⟨_, rfl, by decide +kernel⟩

theorem test_witness_SessionEmitsPackOfItsBits :
    (∀ i ∈ [Instr.encSym 0x41, .packBits 16 0xFFFF], pushes i = true) ∧
      (encoding Packer.reset).block.packer = Packer.reset ∧
      ∃ r, runInstrs ([.encSym 0x41, .packBits 16 0xFFFF] ++ [.packFlush]) (encoding Packer.reset) = some r ∧
        r.succeeded := ⟨by decide, rfl, session_of_good (by decide +kernel)⟩

theorem test_witness_FittingSessionSucceeds :
    (Instr.packBits 16 0xFFFF).wellFormed = true ∧ (encoding Packer.reset).block.ready = true ∧
      (Table.get (encoding Packer.reset).block.code 0x41).isSome = true ∧
      (encoding Packer.reset).block.packer = Packer.reset ∧
      (packBytes (pushedStream (encoding Packer.reset).block.code
        [.encSym 0x41, .packBits 16 0xFFFF])).length ≤ 2 ^ 32 - 1 := by decide +kernel

/-- R100: 17 bits are a chunk of 16 and a chunk of 1, and no bits are no command. -/
theorem test_packStr_cuts_after_sixteen_bits :
    packStr (List.replicate 16 true ++ [false]) = [.packBits 16 0xFFFF, .packBits 1 0] ∧
      packStr [] = [] := by decide

theorem test_witness_PayloadDeterminesTheText :
    (encoding Packer.reset).Inv ∧ (encoding Packer.reset).block.packer = Packer.reset ∧
      ∃ r, runInstrs (encText [0x41, 0x41] ++ [.packFlush]) (encoding Packer.reset) = some r ∧
        r.succeeded := ⟨encoding_inv _ reset_packer_inv, rfl, session_of_good (by decide +kernel)⟩

theorem test_witness_WholeFlowEncodesTheText :
    [(0x61 : Sym), 0x62, 0x61] ≠ [] ∧ (∀ x, [(0x61 : Sym), 0x62, 0x61].count x ≤ 65535) ∧
      [(0x61 : Sym), 0x62, 0x61].dedup.length ≤ 255 := by decide +kernel

theorem test_witness_StatRdReadsTheRegister :
    7 ≤ (7 : BitVec 4).toNat ∧ (6 : BitVec 4).toNat ≤ 6 ∧ (0 : BitVec 4).toNat = 0 := by decide

theorem test_witness_ReadsHaveNoSideEffect :
    ∃ t r, exec (.codeRd 0x41 8) (encoding Packer.reset) = .next t ∧ t.rsp = some r ∧ r.rc = 0 :=
  ⟨_, _, rfl, rfl, by decide +kernel⟩

end Sys2Proof.Tests
end

section
/-! The state family (spec/10_state.md): what a command can do to the block, said once (it takes a fault
that occurs, or it has its effect), the events of a step, and the statements about `ERR`, `READY`,
`CLOSED` and the reset state that follow. -/

namespace Sys2Proof.Machine

-- ======================================================= what a command can do

/-- The fault codes that commands raise: all but the two reserved decode-side kinds (R231, R234, R235). -/
abbrev FaultCode.occurs (f : FaultCode) : Prop := f ≠ .malformedContainer ∧ f ≠ .unknownCode

/-- The block a command leaves when it succeeds: the effect lines of each command's rule, without its
tests.  `resultOf_cases_effect` ties it to `resultOf`. -/
def effectOf (i : Instr) (b : Block) : Block :=
  match i with
  | .nop => b
  | .clr => Block.reset
  | .freqWr sym cnt => Block.invalidate { b with freq := Table.set b.freq sym cnt }
  | .freqInc sym => Block.invalidate { b with freq := Table.set b.freq sym (Table.get b.freq sym + 1) }
  | .freqRd _ => b
  | .build => b.writeCodes
  | .codeRd _ _ => b
  | .encSym sym => { b with packer := (pushBits b.packer ((Table.get b.code sym).getD [])).1 }
  | .packBits n bits => { b with packer := (pushBits b.packer (literalBits n bits)).1 }
  | .packFlush => { b with packer := flushed b.packer }
  | .packClr => { b with packer := Packer.reset }
  | .statRd _ => b

/-- A command takes a fault that occurs, or it answers with success and has its whole effect. -/
theorem resultOf_cases_effect (i : Instr) (b : Block) :
    (∃ f info, f.occurs ∧ resultOf i b = raise b f info) ∨
      ∃ data out, resultOf i b = respond (effectOf i b) data out := by
  cases i with
  | nop | clr | freqWr _ _ | freqRd _ | packClr => exact .inr ⟨_, _, rfl⟩
  | freqInc sym =>
    simp only [resultOf, Block.freqInc]
    split
    · exact .inl ⟨_, _, by decide, rfl⟩
    · exact .inr ⟨_, _, rfl⟩
  | build | packFlush | codeRd _ _ =>
    simp only [resultOf, Block.build, Block.packFlush, Block.codeRd]
    split
    · exact .inl ⟨_, _, by decide, rfl⟩
    split
    · exact .inl ⟨_, _, by decide, rfl⟩
    · exact .inr ⟨_, _, rfl⟩
  | encSym sym =>
    simp only [resultOf, Block.encSym, effectOf]
    split
    · exact .inl ⟨_, _, by decide, rfl⟩
    cases Table.get b.code sym with
    | none => exact .inl ⟨_, _, by decide, rfl⟩
    | some bits =>
      dsimp only
      split
      · exact .inl ⟨_, _, by decide, rfl⟩
      split
      · exact .inl ⟨_, _, by decide, rfl⟩
      · exact .inr ⟨_, _, rfl⟩
  | packBits n bits =>
    simp only [resultOf, Block.packBits]
    split
    · exact .inl ⟨_, _, by decide, rfl⟩
    split
    · exact .inl ⟨_, _, by decide, rfl⟩
    split
    · exact .inl ⟨_, _, by decide, rfl⟩
    · exact .inr ⟨_, _, rfl⟩
  | statRd reg =>
    simp only [resultOf, Block.statRd]
    split
    · exact .inl ⟨_, _, by decide, rfl⟩
    · exact .inr ⟨_, _, rfl⟩

/-- `CLR`, `FREQ_WR` and `PACK_CLR` have no test, so a command that faults is none of them. -/
theorem ne_of_resultOf_eq_raise {i : Instr} {b : Block} {f : FaultCode} {info : Word}
    (h : resultOf i b = raise b f info) :
    i ≠ .clr ∧ i ≠ .packClr ∧ ∀ sym cnt, i ≠ .freqWr sym cnt := by
  have hrc : (resultOf i b).rsp.rc ≠ 0 := by simp [h]
  refine ⟨?_, ?_, fun sym cnt => ?_⟩ <;> rintro rfl <;> exact hrc rfl

/-- After a flush every command that feeds the packer, and a second flush, takes a fault (R35). -/
theorem resultOf_eq_raise_of_closed {i : Instr} {b : Block} (hc : b.packer.closed = true)
    (hi : pushes i = true ∨ i = .packFlush) : ∃ f info, resultOf i b = raise b f info := by
  cases i with
  | nop | clr | freqWr _ _ | freqInc _ | freqRd _ | build | codeRd _ _ | packClr | statRd _ =>
    simp [pushes] at hi
  | packFlush => exact ⟨_, _, if_pos hc⟩
  | packBits n bits =>
    simp only [resultOf, Block.packBits, hc, if_true]
    split <;> exact ⟨_, _, rfl⟩
  | encSym sym =>
    simp only [resultOf, Block.encSym, hc, if_true]
    split
    · exact ⟨_, _, rfl⟩
    · split <;> exact ⟨_, _, rfl⟩

-- ======================================================= ERR, READY and CLOSED after a command

/-- `CLR` alone clears `ERR`; no other effect touches it. -/
theorem effectOf_err (i : Instr) (b : Block) : (effectOf i b).err = if i = .clr then 0 else b.err := by
  cases i <;> rfl

/-- The effects that set and clear `READY` (R25). -/
theorem effectOf_ready (i : Instr) (b : Block) :
    (effectOf i b).ready = true ↔
      i = .build ∨ (b.ready = true ∧ i ≠ .clr ∧ (∀ x c, i ≠ .freqWr x c) ∧ ∀ x, i ≠ .freqInc x) := by
  cases i <;> simp [effectOf, Block.reset, Block.writeCodes]

/-- The effects that set and clear `CLOSED` (R35). -/
theorem effectOf_closed (i : Instr) (b : Block) :
    (effectOf i b).packer.closed = true ↔
      i = .packFlush ∨ (b.packer.closed = true ∧ i ≠ .clr ∧ i ≠ .packClr) := by
  cases i <;> simp [effectOf, Block.reset, Packer.reset, Block.writeCodes, pushBits_frame]

/-- `ERR` after a command (R30). -/
theorem resultOf_err (i : Instr) (b : Block) :
    (resultOf i b).block.err =
      if i = .clr then 0
      else if (resultOf i b).rsp.rc = 0 then b.err
      else b.err ||| (1#16 <<< (resultOf i b).rsp.rc.toNat) := by
  rcases resultOf_cases_effect i b with ⟨f, info, -, h⟩ | ⟨data, out, h⟩
  · obtain ⟨hclr, -, -⟩ := ne_of_resultOf_eq_raise h
    simp [h, hclr, FaultCode.errBit_eq]
  · simp [h, effectOf_err]

/-- `READY` after a command (R25): a fault leaves it. -/
theorem resultOf_ready (i : Instr) (b : Block) :
    (resultOf i b).block.ready = true ↔
      (i = .build ∧ (resultOf i b).rsp.rc = 0) ∨
      (b.ready = true ∧ i ≠ .clr ∧ (∀ x c, i ≠ .freqWr x c) ∧
        ∀ x, i = .freqInc x → (resultOf i b).rsp.rc ≠ 0) := by
  rcases resultOf_cases_effect i b with ⟨f, info, -, h⟩ | ⟨data, out, h⟩
  · obtain ⟨hclr, -, hwr⟩ := ne_of_resultOf_eq_raise h
    simp [h, hclr, hwr]
  · simp [h, effectOf_ready]

/-- `CLOSED` after a command (R35): a fault leaves it. -/
theorem resultOf_closed (i : Instr) (b : Block) :
    (resultOf i b).block.packer.closed = true ↔
      (i = .packFlush ∧ (resultOf i b).rsp.rc = 0) ∨
      (b.packer.closed = true ∧ i ≠ .clr ∧ i ≠ .packClr) := by
  rcases resultOf_cases_effect i b with ⟨f, info, -, h⟩ | ⟨data, out, h⟩
  · obtain ⟨hclr, hpackClr, -⟩ := ne_of_resultOf_eq_raise h
    simp [h, hclr, hpackClr]
  · simp [h, effectOf_closed]

/-- The `ERR` bit of a fault that occurs is none of the reserved ones (R30). -/
theorem FaultCode.occurs.errBit_and_errReserved {f : FaultCode} (hf : f.occurs) :
    f.errBit &&& errReserved = 0 := by
  revert hf; cases f <;> decide

/-- A fault that occurs keeps the reserved bits of `ERR` at 0 (R30). -/
theorem raise_err_reserved {b : Block} {f : FaultCode} (info : Word) (hf : f.occurs)
    (hb : b.err &&& errReserved = 0) : (raise b f info).block.err &&& errReserved = 0 := by
  simp [BitVec.and_or_distrib_right, hb, hf.errBit_and_errReserved]

/-- Every command keeps the reserved bits of `ERR` at 0 (R30). -/
theorem resultOf_err_reserved (i : Instr) {b : Block} (hb : b.err &&& errReserved = 0) :
    (resultOf i b).block.err &&& errReserved = 0 := by
  rcases resultOf_cases_effect i b with ⟨f, info, hf, h⟩ | ⟨data, out, h⟩
  · rw [h]; exact raise_err_reserved info hf hb
  · rw [h, respond_block, effectOf_err]
    split
    · exact BitVec.zero_and
    · exact hb

-- ======================================================= the events of a step

/-- A command ends in the state its block-level result makes. -/
theorem exec_eq_next (i : Instr) (s t : State) :
    exec i s = .next t ↔
      t = { s with block := (resultOf i s.block).block, rsp := some (resultOf i s.block).rsp,
                   out := (resultOf i s.block).out } := by
  rw [exec_eq_deliver, deliver_eq_next]

section Events
variable {s : State} {es : List HostEvent} {w : Word}

/-- A presented word that decodes is executed (R91). -/
theorem step_of_decode_ok {i : Instr} (hs : s.pending = .command w :: es) (hw : decode w = .ok i) :
    step s = exec i { s with pending := es } := by
  simp [step, State.takeEvent, hs, hw]

/-- A presented word that does not decode is an illegal command (R91). -/
theorem step_of_decode_error {e : DecodeError} (hs : s.pending = .command w :: es)
    (hw : decode w = .error e) :
    step s = .next { s with block := (raise s.block .illegalCommand 0).block, pending := es,
                            rsp := some ⟨FaultCode.illegalCommand.rc, 0⟩, out := [] } := by
  simp [step, State.takeEvent, hs, hw, State.illegal, State.deliver]

/-- A reset event resets the block (R260). -/
theorem step_of_reset (hs : s.pending = .reset :: es) :
    step s = .next { s with block := Block.reset, pending := es, rsp := none, out := [] } := by
  simp [step, State.takeEvent, hs, State.applyReset]

/-- The block after a reset event (R260). -/
theorem block_of_reset {t : State} (hs : s.pending = .reset :: es) (ht : step s = .next t) :
    t.block = Block.reset := by
  rw [step_of_reset hs] at ht
  cases ht
  rfl

/-- The block after an illegal word: that of `raise IllegalCommand(0)` (R91). -/
theorem block_of_decode_error {t : State} {e : DecodeError} (hs : s.pending = .command w :: es)
    (hw : decode w = .error e) (ht : step s = .next t) :
    t.block = (raise s.block .illegalCommand 0).block := by
  rw [step_of_decode_error hs hw] at ht
  cases ht
  rfl

end Events

-- ======================================================= the word of CLR

/-- Passing the must-be-zero test (R93). -/
theorem afterMbz_eq_ok {w : Word} {lo : Nat} {d : Except DecodeError Instr} {i : Instr} :
    afterMbz w lo d = .ok i ↔ mbzFrom w lo = true ∧ d = .ok i := by
  unfold afterMbz; split <;> simp_all

theorem decodeCodeRd_ne_clr (w : Word) : decodeCodeRd w ≠ .ok .clr := by
  unfold decodeCodeRd; split <;> simp

theorem decodePackBits_ne_clr (w : Word) : decodePackBits w ≠ .ok .clr := by
  unfold decodePackBits
  dsimp only
  split
  · simp
  · split <;> simp

theorem decodeStatRd_ne_clr (w : Word) : decodeStatRd w ≠ .ok .clr := by
  unfold decodeStatRd; split <;> simp

/-- An opcode of 1 over 28 zero bits is the word of `CLR`. -/
theorem eq_encode_clr {w : Word} (hop : opOf w = 1) (hz : mbzFrom w 0 = true) : w = encode .clr := by
  simp only [opOf, mbzFrom, field, BitVec.extractLsb'_toNat, decide_eq_true_eq,
    Nat.shiftRight_eq_div_pow] at hop hz
  have hlt : w.toNat < 2 ^ 32 := w.isLt
  have hclr : (encode .clr).toNat = 0x10000000 := rfl
  exact BitVec.eq_of_toNat_eq (by omega)

/-- The only word that decodes to `CLR` is its encoding. -/
theorem decode_eq_clr_iff (w : Word) : decode w = .ok .clr ↔ w = encode .clr := by
  constructor
  · intro h
    unfold decode at h
    split at h <;>
      simp [afterMbz_eq_ok, decodeCodeRd_ne_clr, decodePackBits_ne_clr, decodeStatRd_ne_clr] at h
    next hop => exact eq_encode_clr hop h
  · rintro rfl
    decide

-- ======================================================= the registers at reset

/-- The register numbers 0 to 6 name a register, and only 0 names the constant (R37, R44). -/
theorem statReg_of_le {reg : BitVec 4} (h : reg.toNat ≤ 6) :
    ∃ r, statReg reg = some r ∧ (r = .id ↔ reg.toNat = 0) := by
  unfold statReg
  split <;> simp_all
  omega

/-- After reset every register but the constant reads 0 (R50). -/
theorem statWord_reset (r : StatReg) :
    statWord Block.reset r = if r = .id then 0x48474250 else 0 := by
  cases r <;> decide

end Sys2Proof.Machine

open Sys2Proof Sys2Proof.Machine

/-- Settles O16: a fault adds the bit of its code, `CLR` clears, every other success keeps `ERR`; an
illegal word is the fault of code 5. -/
theorem errRecordsEveryFault : Obligations.ErrRecordsEveryFault := by
  refine ⟨rfl, ?_, fun s t es hs ht => by rw [block_of_reset hs ht]; rfl⟩
  intro s t w es r hs ht hr
  cases hw : decode w with
  | error e =>
    have hclr : w ≠ encode .clr := by
      intro h
      simp [(decode_eq_clr_iff w).2 h] at hw
    rw [step_of_decode_error hs hw] at ht
    cases ht
    cases hr
    exact ⟨by simp [hclr, FaultCode.errBit_eq], raise_err_reserved 0 (by decide)⟩
  | ok i =>
    have hclr : i = .clr ↔ w = encode .clr := by simp [← decode_eq_clr_iff, hw]
    rw [step_of_decode_ok hs hw, exec_eq_next] at ht
    subst ht
    cases hr
    simp only [← hclr]
    exact ⟨resultOf_err i s.block, resultOf_err_reserved i⟩

/-- Settles O24: `resultOf_ready` for the commands, the reset block, and the illegal word as a fault. -/
theorem readyFollowsBuildsAndFrequencyWrites : Obligations.ReadyFollowsBuildsAndFrequencyWrites := by
  refine ⟨rfl, ?_, fun s t es hs ht => by rw [block_of_reset hs ht]; rfl,
    fun s t w es e hs hw ht => by rw [block_of_decode_error hs hw ht]; rfl⟩
  intro i s t r ht hr
  rw [exec_eq_next] at ht
  subst ht
  cases hr
  exact resultOf_ready i s.block

/-- Settles O45: `resultOf_closed` for the flag, and the fault every pushing command and flush takes on a
closed packer. -/
theorem closedFollowsFlushAndClear : Obligations.ClosedFollowsFlushAndClear := by
  refine ⟨rfl, ?_, fun s t es hs ht => by rw [block_of_reset hs ht]; rfl,
    fun s t w es e hs hw ht => by rw [block_of_decode_error hs hw ht]; rfl⟩
  intro i s t r ht hr
  rw [exec_eq_next] at ht
  subst ht
  cases hr
  refine ⟨resultOf_closed i s.block, fun hc hi => ?_⟩
  obtain ⟨f, info, h⟩ := resultOf_eq_raise_of_closed hc hi
  simp [h]

/-- Settles O12: each field of the reset state, each register read from it, and `CLR` leaving its block. -/
theorem resetStateIsAllZero : Obligations.ResetStateIsAllZero := by
  refine ⟨fun x => ⟨Table.get_replicate 0 x, Table.get_replicate none x⟩,
    rfl, rfl, rfl, rfl, rfl, rfl, rfl, rfl, rfl, fun reg hreg => ?_, fun s => rfl⟩
  obtain ⟨r, hr, hid⟩ := statReg_of_le hreg
  have hread : Block.reset.statRd reg = respond Block.reset (statWord Block.reset r) [] := by
    simp [Block.statRd, hr]
  rw [exec_eq_deliver, deliver_eq_next]
  simp only [resultOf, State.reset, hread, statWord_reset, hid]
  rfl

end

section
/-! The memory family (spec/20_memory.md): which commands emit no byte, what a command does when it is
repeated on the block it left, and the reads, which succeed without a side effect (R70). -/

namespace Sys2Proof.Machine

/-- Only a command that feeds the packer, and the flush, can emit a byte. -/
theorem resultOf_out_eq_nil {i : Instr} (b : Block) (hp : pushes i = false) (hf : i ≠ .packFlush) :
    (resultOf i b).out = [] := by
  cases i with
  | nop | clr | freqWr _ _ | freqRd _ | packClr => rfl
  | encSym _ | packBits _ _ => simp [pushes] at hp
  | packFlush => exact absurd rfl hf
  | freqInc _ | statRd _ =>
    simp only [resultOf, Block.freqInc, Block.statRd]
    split <;> rfl
  | build | codeRd _ _ =>
    simp only [resultOf, Block.build, Block.codeRd]
    split
    · rfl
    · split <;> rfl

/-- A command that answers with success has its whole effect on the block. -/
theorem resultOf_block_of_success {i : Instr} {b : Block} (h : (resultOf i b).rsp.rc = 0) :
    (resultOf i b).block = effectOf i b := by
  rcases resultOf_cases_effect i b with ⟨f, info, -, hraise⟩ | ⟨data, out, hrespond⟩
  · simp [hraise] at h
  · rw [hrespond, respond_block]

/-- A command sees nothing of the machine but the block, so one that leaves the block unchanged ends in
the same state again. -/
theorem exec_repeats {i : Instr} {s t : State} (ht : exec i s = .next t) (hb : t.block = s.block) :
    exec i t = .next t := by
  rw [exec_eq_next] at ht ⊢
  rw [hb]
  subst ht
  rfl

end Sys2Proof.Machine

open Sys2Proof Sys2Proof.Machine

/-- Settles O57: the effect of a successful read is the block itself, a read neither feeds the packer nor
flushes it, and a command that leaves the block unchanged repeats. -/
theorem readsHaveNoSideEffect : Obligations.ReadsHaveNoSideEffect := by
  intro i s t r hi ht hr hrc
  have hread : effectOf i s.block = s.block ∧ pushes i = false ∧ i ≠ .packFlush := by
    rcases hi with ⟨x, rfl⟩ | ⟨x, w, rfl⟩ | ⟨reg, rfl⟩ <;> exact ⟨rfl, rfl, nofun⟩
  obtain ⟨heffect, hpushes, hflush⟩ := hread
  have hnext := (exec_eq_next i s t).1 ht
  have hsuccess : (resultOf i s.block).rsp.rc = 0 := by
    rw [hnext] at hr
    cases hr
    exact hrc
  have hblock : t.block = s.block := by
    rw [hnext]
    exact (resultOf_block_of_success hsuccess).trans heffect
  have hout : t.out = [] := by
    rw [hnext]
    exact resultOf_out_eq_nil s.block hpushes hflush
  exact ⟨hblock, hout, exec_repeats ht hblock⟩

end

section
/-! The encoding family (spec/30_encoding.md): the opcode and the must-be-zero bits a row of the opcode map
fixes, the fields of a word read as a command, and the decoder as the inverse of the encoder; the illegal
words and the two ways a presented word is executed follow. -/

namespace Sys2Proof

-- ======================================================= fields, opcode and must-be-zero bits

/-- A field as a number (R8). -/
theorem field_toNat (w : Word) (lo width : Nat) :
    (field w lo width).toNat = w.toNat / 2 ^ lo % 2 ^ width := by
  simp [field, Nat.shiftRight_eq_div_pow]

/-- The opcode is what stands above bit 27 (R81). -/
theorem opOf_eq_div (w : Word) : opOf w = w.toNat / 2 ^ 28 := by
  rw [opOf, field_toNat]
  have := w.isLt
  omega

/-- The must-be-zero test as a number (R82). -/
theorem mbzFrom_iff (w : Word) (lo : Nat) :
    mbzFrom w lo = true ↔ w.toNat / 2 ^ lo % 2 ^ (28 - lo) = 0 := by
  rw [mbzFrom, decide_eq_true_eq, field_toNat]

/-- The opcode of a command (the `OP` column of R90). -/
def Instr.opcode : Instr → Nat
  | .nop => 0x0
  | .clr => 0x1
  | .freqWr _ _ => 0x2
  | .freqInc _ => 0x3
  | .freqRd _ => 0x4
  | .build => 0x5
  | .codeRd _ _ => 0x6
  | .encSym _ => 0x7
  | .packBits _ _ => 0x8
  | .packFlush => 0x9
  | .packClr => 0xA
  | .statRd _ => 0xB

/-- How many low bits of a command's word belong to its operands; the must-be-zero bits of its format stand
from there up to bit 27 (R82). -/
def Instr.operandWidth : Instr → Nat
  | .nop => 0
  | .clr => 0
  | .freqWr _ _ => 24
  | .freqInc _ => 8
  | .freqRd _ => 8
  | .build => 0
  | .codeRd _ _ => 12
  | .encSym _ => 8
  | .packBits _ _ => 21
  | .packFlush => 0
  | .packClr => 0
  | .statRd _ => 4

/-- A mask of all bits from `lo` up clears the bits below (R90). -/
theorem and_allOnes_shiftLeft_toNat (w : Word) (lo : Nat) :
    (w &&& (BitVec.allOnes 32 <<< lo)).toNat = w.toNat / 2 ^ lo * 2 ^ lo := by
  rw [← BitVec.shiftLeft_ushiftRight, BitVec.toNat_shiftLeft, BitVec.toNat_ushiftRight,
    Nat.shiftRight_eq_div_pow, Nat.shiftLeft_eq]
  exact Nat.mod_eq_of_lt (lt_of_le_of_lt (Nat.div_mul_le_self _ _) w.isLt)

/-- The bits from `lo` up are those of `op` over zero bits exactly when the word has the opcode `op` and no
must-be-zero bit set. -/
theorem div_mul_eq_iff_opOf_mbzFrom (w : Word) {lo : Nat} (op : Nat) (hlo : lo ≤ 28) :
    w.toNat / 2 ^ lo * 2 ^ lo = op * 2 ^ 28 ↔ opOf w = op ∧ mbzFrom w lo = true := by
  have hsplit : 2 ^ 28 = 2 ^ lo * 2 ^ (28 - lo) := by rw [← Nat.pow_add, Nat.add_sub_cancel' hlo]
  rw [opOf_eq_div, mbzFrom_iff, hsplit, ← Nat.div_div_eq_div_mul]
  generalize w.toNat / 2 ^ lo = high
  rw [Nat.mul_comm (2 ^ lo), ← Nat.mul_assoc, Nat.mul_left_inj (Nat.two_pow_pos lo).ne']
  constructor
  · rintro rfl
    exact ⟨Nat.mul_div_cancel _ (Nat.two_pow_pos _), Nat.mul_mod_left _ _⟩
  · rintro ⟨rfl, hzero⟩
    exact (Nat.div_mul_cancel (Nat.dvd_of_mod_eq_zero hzero)).symm

/-- The match of a command's row is its opcode over zero bits (R90). -/
theorem Instr.row_pattern_toNat (i : Instr) : i.row.pattern.toNat = i.opcode * 2 ^ 28 := by
  cases i <;> (simp only [Instr.row, Instr.opcode]; decide)

/-- The mask of a command's row covers everything above its operands (R90). -/
theorem Instr.row_mask (i : Instr) : i.row.mask = BitVec.allOnes 32 <<< i.operandWidth := by
  cases i <;> (simp only [Instr.row, Instr.operandWidth]; decide)

/-- A command's row selects the words whose bits above the operands spell its opcode (R90). -/
theorem Instr.row_selects_iff_div_mul (i : Instr) (w : Word) :
    i.row.selects w ↔ w.toNat / 2 ^ i.operandWidth * 2 ^ i.operandWidth = i.opcode * 2 ^ 28 := by
  rw [OpcodeRow.selects, ← BitVec.toNat_inj, i.row_mask, and_allOnes_shiftLeft_toNat,
    i.row_pattern_toNat]

/-- A command's row selects the words with its opcode and no must-be-zero bit set (R90). -/
theorem Instr.row_selects_iff (i : Instr) (w : Word) :
    i.row.selects w ↔ opOf w = i.opcode ∧ mbzFrom w i.operandWidth = true := by
  have hwidth : i.operandWidth ≤ 28 := by cases i <;> simp [Instr.operandWidth]
  rw [i.row_selects_iff_div_mul, div_mul_eq_iff_opOf_mbzFrom w _ hwidth]

/-- The rows of the opcode map are the rows of the commands. -/
theorem mem_opcodeTable_iff {r : OpcodeRow} : r ∈ opcodeTable ↔ ∃ i : Instr, i.row = r := by
  constructor
  · intro h
    have h' : r ∈ [Instr.nop, .clr, .freqWr 0 0, .freqInc 0, .freqRd 0, .build, .codeRd 0 0, .encSym 0,
      .packBits 0 0, .packFlush, .packClr, .statRd 0].map Instr.row := h
    obtain ⟨i, -, hi⟩ := List.mem_map.1 h'
    exact ⟨i, hi⟩
  · rintro ⟨i, rfl⟩
    cases i <;> simp [opcodeTable, Instr.row]

-- ======================================================= the encoder as a number

/-- The operand fields of a command at their places in its word (R82). -/
def Instr.operandBits : Instr → Nat
  | .nop => 0
  | .clr => 0
  | .freqWr sym cnt => sym.toNat * 2 ^ 16 + cnt.toNat
  | .freqInc sym => sym.toNat
  | .freqRd sym => sym.toNat
  | .build => 0
  | .codeRd sym widx => widx.toNat * 2 ^ 8 + sym.toNat
  | .encSym sym => sym.toNat
  | .packBits n bits => n.toNat * 2 ^ 16 + bits.toNat
  | .packFlush => 0
  | .packClr => 0
  | .statRd reg => reg.toNat

/-- Placing an operand over zero bits adds it at its place. -/
theorem toNat_or_place {x : Word} {lo k : Nat} (v : BitVec k) (hk : lo + k ≤ 32)
    (hx : x.toNat % 2 ^ (lo + k) = 0) : (x ||| place lo v).toNat = x.toNat + v.toNat * 2 ^ lo := by
  have hv : v.toNat * 2 ^ lo < 2 ^ (lo + k) := by
    rw [Nat.pow_add, Nat.mul_comm]
    exact Nat.mul_lt_mul_of_pos_left v.isLt (Nat.two_pow_pos lo)
  have hplace : (place lo v).toNat = v.toNat * 2 ^ lo := by
    have hle : 2 ^ (lo + k) ≤ 2 ^ 32 := Nat.pow_le_pow_right (by decide) hk
    have hvk : v.toNat < 2 ^ 32 := lt_of_lt_of_le v.isLt (Nat.pow_le_pow_right (by decide) (by omega))
    simp only [place, BitVec.toNat_shiftLeft, BitVec.toNat_setWidth, Nat.shiftLeft_eq,
      Nat.mod_eq_of_lt hvk]
    exact Nat.mod_eq_of_lt (by omega)
  obtain ⟨q, hq⟩ := Nat.dvd_of_mod_eq_zero hx
  rw [BitVec.toNat_or, hplace, hq, Nat.two_pow_add_eq_or_of_lt hv]

/-- Placing a second operand that fills the bits below the first adds it too. -/
theorem toNat_or_place_place {x : Word} {lo k : Nat} (high : BitVec k) (low : BitVec lo)
    (hk : lo + k ≤ 32) (hx : x.toNat % 2 ^ (lo + k) = 0) :
    (x ||| place lo high ||| place 0 low).toNat = x.toNat + (high.toNat * 2 ^ lo + low.toNat) := by
  have hhigh := toNat_or_place high hk hx
  have hbelow : (x ||| place lo high).toNat % 2 ^ (0 + lo) = 0 := by
    have hxlo : 2 ^ lo ∣ x.toNat :=
      (Nat.pow_dvd_pow 2 (Nat.le_add_right lo k)).trans (Nat.dvd_of_mod_eq_zero hx)
    rw [hhigh, Nat.zero_add, Nat.add_mul_mod_self_right, Nat.mod_eq_zero_of_dvd hxlo]
  rw [toNat_or_place low (by omega) hbelow, hhigh, Nat.pow_zero, Nat.mul_one, Nat.add_assoc]

/-- The word of a command as a number: its opcode above bit 27 and its operands below. -/
theorem encode_toNat (i : Instr) : (encode i).toNat = i.opcode * 2 ^ 28 + i.operandBits := by
  rw [← i.row_pattern_toNat]
  cases i with
  | nop | clr | build | packFlush | packClr => rfl
  | freqInc x | freqRd x | encSym x | statRd x =>
    rw [encode, toNat_or_place x (by decide) (by decide), Nat.pow_zero, Nat.mul_one]
    rfl
  | freqWr high low | packBits high low | codeRd low high =>
    rw [encode, toNat_or_place_place high low (by decide) (by decide)]
    rfl

-- ======================================================= the fields of a word read as a command

/-- The command of `i`'s kind whose operands are the fields of `w` (R82, R89). -/
def Instr.withFields (w : Word) : Instr → Instr
  | .nop => .nop
  | .clr => .clr
  | .freqWr _ _ => .freqWr (field w 16 8) (field w 0 16)
  | .freqInc _ => .freqInc (field w 0 8)
  | .freqRd _ => .freqRd (field w 0 8)
  | .build => .build
  | .codeRd _ _ => .codeRd (field w 0 8) (field w 8 4)
  | .encSym _ => .encSym (field w 0 8)
  | .packBits _ _ => .packBits (field w 16 5) (field w 0 16)
  | .packFlush => .packFlush
  | .packClr => .packClr
  | .statRd _ => .statRd (field w 0 4)

/-- Reading the fields of a word makes a command of the same kind. -/
theorem Instr.withFields_opcode (i : Instr) (w : Word) : (i.withFields w).opcode = i.opcode := by
  cases i <;> rfl

/-- Two adjacent fields at the low end of a word are one field. -/
theorem field_toNat_append (w : Word) (lo k : Nat) :
    (field w lo k).toNat * 2 ^ lo + (field w 0 lo).toNat = w.toNat % 2 ^ (lo + k) := by
  rw [field_toNat, field_toNat, Nat.pow_zero, Nat.div_one, Nat.pow_add, Nat.mod_mul, Nat.add_comm,
    Nat.mul_comm]

/-- The fields of a format fill all the bits below its must-be-zero bits (R82). -/
theorem Instr.withFields_operandBits (i : Instr) (w : Word) :
    (i.withFields w).operandBits = w.toNat % 2 ^ i.operandWidth := by
  cases i with
  | nop | clr | build | packFlush | packClr => exact (Nat.mod_one _).symm
  | freqInc _ | freqRd _ | encSym _ | statRd _ =>
    rw [Instr.withFields, Instr.operandBits, field_toNat, Nat.pow_zero, Nat.div_one]
    rfl
  | freqWr _ _ => exact field_toNat_append w 16 8
  | packBits _ _ => exact field_toNat_append w 16 5
  | codeRd _ _ => exact field_toNat_append w 8 4

/-- A word that a command's row selects is the word of the command its fields spell. -/
theorem encode_withFields {i : Instr} {w : Word} (h : i.row.selects w) :
    encode (i.withFields w) = w := by
  apply BitVec.eq_of_toNat_eq
  rw [encode_toNat, Instr.withFields_opcode, Instr.withFields_operandBits,
    ← (i.row_selects_iff_div_mul w).1 h, Nat.div_add_mod']

/-- A field reads the operand that stands at its place. -/
theorem field_eq_of_toNat {w : Word} {lo k : Nat} {v : BitVec k}
    (h : w.toNat / 2 ^ lo % 2 ^ k = v.toNat) : field w lo k = v :=
  BitVec.eq_of_toNat_eq ((field_toNat w lo k).trans h)

/-- Encoding drops and moves no bit of an operand (R89). -/
theorem Instr.withFields_encode (i : Instr) : i.withFields (encode i) = i := by
  cases i with
  | nop | clr | build | packFlush | packClr => rfl
  | freqInc x | freqRd x | encSym x | statRd x =>
    have hx := x.isLt
    rw [Instr.withFields, field_eq_of_toNat (v := x)]
    simp only [encode_toNat, Instr.opcode, Instr.operandBits]
    omega
  | freqWr high low | packBits high low | codeRd low high =>
    have hhigh := high.isLt
    have hlow := low.isLt
    rw [Instr.withFields, field_eq_of_toNat (v := high), field_eq_of_toNat (v := low)] <;>
      simp only [encode_toNat, Instr.opcode, Instr.operandBits] <;> omega

-- ======================================================= the decoder

section Decoder
variable {w : Word} {i j : Instr}

/-- A command read under a check is that command, when the check is the one for well-formedness (R94). -/
theorem ite_ok_eq_ok_iff {check : Prop} [Decidable check] {e : DecodeError}
    (hcheck : check ↔ i.wellFormed = true) :
    (if check then .ok i else .error e : Except DecodeError Instr) = .ok j ↔
      i = j ∧ j.wellFormed = true := by
  by_cases h : check
  · rw [if_pos h, Except.ok.injEq]
    exact ⟨fun hij => ⟨hij, hij ▸ hcheck.1 h⟩, And.left⟩
  · rw [if_neg h]
    refine iff_of_false nofun ?_
    rintro ⟨rfl, hwf⟩
    exact h (hcheck.2 hwf)

/-- `CODE_RD` is read from its fields under its one check (R94). -/
theorem decodeCodeRd_eq_ok_iff :
    decodeCodeRd w = .ok i ↔ (Instr.codeRd 0 0).withFields w = i ∧ i.wellFormed = true :=
  ite_ok_eq_ok_iff decide_eq_true_iff.symm

/-- `STAT_RD` is read from its field under its one check (R94). -/
theorem decodeStatRd_eq_ok_iff :
    decodeStatRd w = .ok i ↔ (Instr.statRd 0).withFields w = i ∧ i.wellFormed = true :=
  ite_ok_eq_ok_iff decide_eq_true_iff.symm

/-- The two tests of `PACK_BITS`, one after the other, are the one check of its literal. -/
theorem decodePackBits_eq_ok_iff :
    decodePackBits w = .ok i ↔ (Instr.packBits 0 0).withFields w = i ∧ i.wellFormed = true := by
  unfold decodePackBits
  dsimp only
  split
  next hcount =>
    refine iff_of_false nofun ?_
    rintro ⟨rfl, hwf⟩
    obtain ⟨hmin, hmax, -⟩ := of_decide_eq_true hwf
    exact hcount ⟨hmin, hmax⟩
  next hcount =>
    obtain ⟨hmin, hmax⟩ := not_not.1 hcount
    refine ite_ok_eq_ok_iff (Iff.trans ?_ decide_eq_true_iff.symm)
    exact ⟨fun hbits => ⟨hmin, hmax, hbits⟩, fun ⟨_, _, hbits⟩ => hbits⟩

/-- A command without an operand check is read as it is. -/
theorem ok_eq_ok_iff_of_wellFormed (hwf : i.wellFormed = true) :
    (.ok i : Except DecodeError Instr) = .ok j ↔ i = j ∧ j.wellFormed = true := by
  rw [Except.ok.injEq]
  exact ⟨fun hij => ⟨hij, hij ▸ hwf⟩, And.left⟩

/-- A word with the opcode of a command decodes to a command of that kind, made of the word's fields, when
it has no must-be-zero bit set and passes the checks of R94, and to nothing else (R91, R93). -/
theorem decode_eq_ok_iff_of_opOf (hop : opOf w = i.opcode) :
    decode w = .ok j ↔
      mbzFrom w i.operandWidth = true ∧ i.withFields w = j ∧ j.wellFormed = true := by
  unfold decode
  rw [hop]
  cases i with
  | codeRd _ _ => exact Machine.afterMbz_eq_ok.trans (and_congr_right' decodeCodeRd_eq_ok_iff)
  | packBits _ _ => exact Machine.afterMbz_eq_ok.trans (and_congr_right' decodePackBits_eq_ok_iff)
  | statRd _ => exact Machine.afterMbz_eq_ok.trans (and_congr_right' decodeStatRd_eq_ok_iff)
  | nop | clr | freqWr _ _ | freqInc _ | freqRd _ | build | encSym _ | packFlush | packClr =>
    exact Machine.afterMbz_eq_ok.trans (and_congr_right' (ok_eq_ok_iff_of_wellFormed rfl))

/-- An opcode of no command is reserved (R92). -/
theorem decode_of_reserved_opcode (h : ∀ i : Instr, opOf w ≠ i.opcode) :
    decode w = .error .reservedOpcode := by
  unfold decode
  split
  case h_13 => rfl
  exacts [absurd ‹_› (h .nop), absurd ‹_› (h .clr), absurd ‹_› (h (.freqWr 0 0)),
    absurd ‹_› (h (.freqInc 0)), absurd ‹_› (h (.freqRd 0)), absurd ‹_› (h .build),
    absurd ‹_› (h (.codeRd 0 0)), absurd ‹_› (h (.encSym 0)), absurd ‹_› (h (.packBits 0 0)),
    absurd ‹_› (h .packFlush), absurd ‹_› (h .packClr), absurd ‹_› (h (.statRd 0))]

/-- A word that a command's row selects decodes to the command its fields spell, when that one passes the
checks of R94, and to nothing else. -/
theorem decode_eq_ok_iff_of_selects (h : i.row.selects w) :
    decode w = .ok j ↔ i.withFields w = j ∧ j.wellFormed = true := by
  obtain ⟨hop, hmbz⟩ := (i.row_selects_iff w).1 h
  rw [decode_eq_ok_iff_of_opOf hop, and_iff_right hmbz]

/-- A word that decodes is selected by a row (R90). -/
theorem exists_row_selects_of_decode_ok (h : decode w = .ok j) : ∃ i : Instr, i.row.selects w := by
  by_cases hop : ∃ i : Instr, opOf w = i.opcode
  · obtain ⟨i, hi⟩ := hop
    obtain ⟨hmbz, -⟩ := (decode_eq_ok_iff_of_opOf hi).1 h
    exact ⟨i, (i.row_selects_iff w).2 ⟨hi, hmbz⟩⟩
  · rw [decode_of_reserved_opcode (not_exists.1 hop)] at h
    cases h

/-- The row of a command selects the command's word (the laws of the family `RowOfWord`, together). -/
theorem row_selects_encode (i : Instr) : i.row.selects (encode i) := by
  cases i with
  | nop => exact Laws.RowOfWord.nop
  | clr => exact Laws.RowOfWord.clr
  | freqWr sym cnt => exact Laws.RowOfWord.freqWr sym cnt
  | freqInc sym => exact Laws.RowOfWord.freqInc sym
  | freqRd sym => exact Laws.RowOfWord.freqRd sym
  | build => exact Laws.RowOfWord.build
  | codeRd sym widx => exact Laws.RowOfWord.codeRd sym widx
  | encSym sym => exact Laws.RowOfWord.encSym sym
  | packBits n bits => exact Laws.RowOfWord.packBits n bits
  | packFlush => exact Laws.RowOfWord.packFlush
  | packClr => exact Laws.RowOfWord.packClr
  | statRd reg => exact Laws.RowOfWord.statRd reg

/-- The decoder is the inverse of the encoder on the well-formed commands (R80, R91, R95). -/
theorem decode_eq_ok_iff_encode : decode w = .ok i ↔ i.wellFormed = true ∧ encode i = w := by
  constructor
  · intro h
    obtain ⟨k, hrow⟩ := exists_row_selects_of_decode_ok h
    obtain ⟨rfl, hwf⟩ := (decode_eq_ok_iff_of_selects hrow).1 h
    exact ⟨hwf, encode_withFields hrow⟩
  · rintro ⟨hwf, rfl⟩
    exact (decode_eq_ok_iff_of_selects (row_selects_encode i)).2 ⟨i.withFields_encode, hwf⟩

-- ======================================================= the illegal words

/-- A word that a command's row selects is illegal exactly when its fields fail the checks of R94. -/
theorem decode_eq_error_iff_of_selects (h : i.row.selects w) :
    (∃ e, decode w = .error e) ↔ (i.withFields w).wellFormed = false := by
  cases hw : decode w with
  | error e =>
    have hill : (i.withFields w).wellFormed ≠ true := fun hwf => by
      rw [(decode_eq_ok_iff_of_selects h).2 ⟨rfl, hwf⟩] at hw
      cases hw
    exact iff_of_true ⟨e, rfl⟩ (Bool.eq_false_of_not_eq_true hill)
  | ok j =>
    obtain ⟨rfl, hwf⟩ := (decode_eq_ok_iff_of_selects h).1 hw
    exact iff_of_false nofun (by simp [hwf])

/-- A word that no row selects is illegal (R92, R93). -/
theorem decode_eq_error_of_no_row (h : ∀ r ∈ opcodeTable, ¬ r.selects w) :
    ∃ e, decode w = .error e := by
  cases hw : decode w with
  | error e => exact ⟨e, rfl⟩
  | ok j =>
    obtain ⟨i, hrow⟩ := exists_row_selects_of_decode_ok hw
    exact absurd hrow (h i.row (mem_opcodeTable_iff.2 ⟨i, rfl⟩))

/-- The check of `CODE_RD` on the bits of the word (R94). -/
theorem codeRd_withFields_illegal_iff (sym : Sym) (widx : BitVec 4) :
    ((Instr.codeRd sym widx).withFields w).wellFormed = false ↔ 9 ≤ w.toNat / 2 ^ 8 % 2 ^ 4 := by
  simp only [Instr.withFields, Instr.wellFormed, decide_eq_false_iff_not, widxLegal, field_toNat,
    Config.widxMax, not_le, Nat.lt_iff_add_one_le]

/-- The check of `STAT_RD` on the bits of the word (R94). -/
theorem statRd_withFields_illegal_iff (reg : BitVec 4) :
    ((Instr.statRd reg).withFields w).wellFormed = false ↔ 7 ≤ w.toNat % 2 ^ 4 := by
  simp only [Instr.withFields, Instr.wellFormed, decide_eq_false_iff_not, regLegal, field_toNat,
    Config.regMax, not_le, Nat.lt_iff_add_one_le, Nat.pow_zero, Nat.div_one]

/-- The checks of `PACK_BITS` on the bits of the word (R94). -/
theorem packBits_withFields_illegal_iff (n : BitVec 5) (bits : BitVec 16) :
    ((Instr.packBits n bits).withFields w).wellFormed = false ↔
      w.toNat / 2 ^ 16 % 2 ^ 5 = 0 ∨ 17 ≤ w.toNat / 2 ^ 16 % 2 ^ 5 ∨
        (w.toNat % 2 ^ 16) / 2 ^ (w.toNat / 2 ^ 16 % 2 ^ 5) ≠ 0 := by
  simp only [Instr.withFields, Instr.wellFormed, decide_eq_false_iff_not, literalLegal,
    ← BitVec.toNat_inj, BitVec.toNat_ushiftRight, Nat.shiftRight_eq_div_pow, field_toNat, Nat.pow_zero,
    Nat.div_one, Config.packBitsMax, not_and_or, not_le, Nat.lt_one_iff]
  rfl

end Decoder

end Sys2Proof

open Sys2Proof Sys2Proof.Machine

/-- Settles O3: no row, or the row of one of the three commands with an operand check, whose fields fail
it; the fields of the other nine are always legal. -/
theorem illegalWordsAreExactlyThese : Obligations.IllegalWordsAreExactlyThese := by
  intro w
  constructor
  · intro hillegal
    by_cases hrows : ∀ r ∈ opcodeTable, ¬ r.selects w
    · exact .inl hrows
    · push Not at hrows
      obtain ⟨r, hr, hrow⟩ := hrows
      obtain ⟨i, rfl⟩ := mem_opcodeTable_iff.1 hr
      have hfields := (decode_eq_error_iff_of_selects hrow).1 hillegal
      cases i with
      | codeRd sym widx => exact .inr (.inl ⟨hrow, (codeRd_withFields_illegal_iff sym widx).1 hfields⟩)
      | packBits n bits =>
        exact .inr (.inr (.inl ⟨hrow, (packBits_withFields_illegal_iff n bits).1 hfields⟩))
      | statRd reg => exact .inr (.inr (.inr ⟨hrow, (statRd_withFields_illegal_iff reg).1 hfields⟩))
      | nop | clr | freqWr _ _ | freqInc _ | freqRd _ | build | encSym _ | packFlush | packClr =>
        cases hfields
  · rintro (hrows | ⟨hrow, hwidx⟩ | ⟨hrow, hliteral⟩ | ⟨hrow, hreg⟩)
    · exact decode_eq_error_of_no_row hrows
    · exact (decode_eq_error_iff_of_selects hrow).2 ((codeRd_withFields_illegal_iff 0 0).2 hwidx)
    · exact (decode_eq_error_iff_of_selects hrow).2 ((packBits_withFields_illegal_iff 0 0).2 hliteral)
    · exact (decode_eq_error_iff_of_selects hrow).2 ((statRd_withFields_illegal_iff 0).2 hreg)

/-- Settles O7: the decoder, inverse to the encoder, finds the one command of the word and the step runs
it, or it finds none and the step is the fault of code 5. -/
theorem everyWordIsACommandOrIllegal : Obligations.EveryWordIsACommandOrIllegal := by
  intro s w es hs
  cases hw : decode w with
  | ok i =>
    obtain ⟨hwf, henc⟩ := decode_eq_ok_iff_encode.1 hw
    refine .inl ⟨i, hwf, henc, fun j hj hjw => ?_, step_of_decode_ok hs hw⟩
    have hok : Except.ok j = Except.ok i := (decode_eq_ok_iff_encode.2 ⟨hj, hjw⟩).symm.trans hw
    exact Except.ok.inj hok
  | error e =>
    refine .inr ⟨fun i hwf henc => ?_, step_of_decode_error hs hw⟩
    have hok : Except.error e = Except.ok i := hw.symm.trans (decode_eq_ok_iff_encode.2 ⟨hwf, henc⟩)
    cases hok

end

section
/-! The frequency family (spec/40_frequency.md): how a command's result stands on the machine when it is a
success or a fault, `FREQ_INC` as a `FREQ_WR` of the next count, and the three frequency commands. -/

namespace Sys2Proof.Machine

/-- A command whose result is a success ends with that block, response and bytes (R12, R97). -/
theorem exec_of_resultOf_eq_respond {i : Instr} {s : State} {b : Block} {data : Word} {out : List Byte}
    (h : resultOf i s.block = respond b data out) : exec i s = .next (s.succeeded b data out) := by
  rw [exec_eq_next, h]
  rfl

/-- A command whose result is a fault ends with the fault's number and bit, and nothing else changed
(R242). -/
theorem exec_of_resultOf_eq_raise {i : Instr} {s : State} {f : FaultCode} {info : Word}
    (h : resultOf i s.block = raise s.block f info) :
    exec i s = .next (s.faulted f.number info) := by
  rw [exec_eq_next, h]
  rfl

/-- At the largest count `FREQ_INC` is an overflow (R112, R233). -/
theorem Block.freqInc_of_eq {b : Block} {sym : Sym} (h : (Table.get b.freq sym).toNat = 65535) :
    b.freqInc sym = raise b .alphabetOverflow 1 :=
  if_pos h

/-- On the block, counting up below the largest count is writing the next count (R112). -/
theorem Block.freqInc_of_lt {b : Block} {sym : Sym} (h : (Table.get b.freq sym).toNat < 65535) :
    b.freqInc sym = b.freqWr sym (Table.get b.freq sym + 1) :=
  if_neg h.ne

/-- Below the largest count the command `FREQ_INC` is the command `FREQ_WR` of the next count (R112). -/
theorem exec_freqInc_of_lt {s : State} {sym : Sym} (h : (Table.get s.block.freq sym).toNat < 65535) :
    exec (.freqInc sym) s = exec (.freqWr sym (Table.get s.block.freq sym + 1)) s := by
  rw [exec_eq_deliver, exec_eq_deliver]
  exact congrArg s.deliver (Block.freqInc_of_lt h)

/-- A count below the largest does not wrap when it is counted up. -/
theorem count_toNat_add_one {c : Count} (h : c.toNat < 65535) : (c + 1).toNat = c.toNat + 1 :=
  BitVec.toNat_add_of_lt (Nat.succ_lt_succ h)

end Sys2Proof.Machine

open Sys2Proof Sys2Proof.Machine

/-- Settles O19: the word by `encode_toNat`; the block is the invalidated one with the count written. -/
theorem freqWrWritesOneCount : Obligations.FreqWrWritesOneCount := by
  intro sym cnt
  constructor
  · simp only [encode_toNat, Instr.opcode, Instr.operandBits]
    omega
  · intro s
    exact ⟨Block.invalidate { s.block with freq := Table.set s.block.freq sym cnt },
      exec_of_resultOf_eq_respond rfl, fun x => Table.get_set s.block.freq sym x cnt,
      fun x => Table.get_replicate none x, rfl, rfl, rfl, rfl, rfl⟩

/-- Settles O20: at 65535 the fault; below, `FREQ_INC` is the `FREQ_WR` of the next count. -/
theorem freqIncCountsOrOverflows : Obligations.FreqIncCountsOrOverflows := by
  refine fun sym => ⟨?_, fun s => ⟨fun hmax => ?_, fun hlt => ?_⟩⟩
  · simp only [encode_toNat, Instr.opcode, Instr.operandBits]
    omega
  · exact exec_of_resultOf_eq_raise (i := .freqInc sym) (Block.freqInc_of_eq hmax)
  · obtain ⟨-, hwr⟩ := freqWrWritesOneCount sym (Table.get s.block.freq sym + 1)
    obtain ⟨b, hexec, hfreq, hrest⟩ := hwr s
    refine ⟨b, (exec_freqInc_of_lt hlt).trans hexec, ?_, fun x hx => ?_, hrest⟩
    · rw [hfreq, if_pos rfl, count_toNat_add_one hlt]
    · rw [hfreq, if_neg hx]

/-- Settles O21: the 16-bit count is the low half of the data, and the block is the one before. -/
theorem freqRdReadsOneCount : Obligations.FreqRdReadsOneCount := by
  refine fun sym => ⟨?_, fun s => ?_⟩
  · simp only [encode_toNat, Instr.opcode, Instr.operandBits]
    omega
  · exact ⟨(Table.get s.block.freq sym).setWidth 32, exec_of_resultOf_eq_respond rfl,
      BitVec.toNat_setWidth_of_le (by decide)⟩

end

section
/-! The build family (spec/41_build.md): the scan as a filter of all symbols, the queue and its lowest
member, what a merge pass keeps, the code of a symbol as the path to its leaf, and the three ways `BUILD`
ends. -/

namespace Sys2Proof.Machine

-- ======================================================= the scan

/-- All 256 symbols, in ascending value. -/
def allSyms : List Sym := (List.finRange 256).map BitVec.ofFin

/-- No symbol is missing. -/
theorem mem_allSyms (x : Sym) : x ∈ allSyms :=
  List.mem_map.2 ⟨x.toFin, List.mem_finRange _, rfl⟩

theorem allSyms_pairwise_lt : allSyms.Pairwise fun x y => x.toNat < y.toNat :=
  List.pairwise_map.2 (List.pairwise_lt_finRange 256)

theorem allSyms_length : allSyms.length = 256 := by
  simp [allSyms]

/-- The entries of a table are what it holds for each symbol in turn. -/
theorem Table.toList_eq_map_get {α : Type} (t : Table α) : t.toList = allSyms.map (Table.get t) := by
  apply List.ext_getElem <;> simp [allSyms, Table.get]

/-- An entry stands at the position its symbol numbers. -/
theorem Table.zipIdx_toList {α : Type} (t : Table α) :
    t.toList.zipIdx = allSyms.map fun x => (Table.get t x, x.toNat) := by
  apply List.ext_getElem <;> simp [allSyms, Table.get]

section Scan
variable (freq : Table Count)

/-- The scan filters the present symbols out of all symbols (R131). -/
theorem scan_eq_filter : scan freq = allSyms.filter fun x => decide (present freq x) := by
  simp [scan, counted, Table.zipIdx_toList, List.filter_map, Function.comp_def]

/-- The scan with counts pairs each symbol of the scan with its count (R131). -/
theorem counted_eq_map_scan : counted freq = (scan freq).map fun x => (x, Table.get freq x) := by
  simp [scan_eq_filter, counted, Table.zipIdx_toList, List.filter_map, Function.comp_def]

theorem mem_scan {x : Sym} : x ∈ scan freq ↔ present freq x := by
  simp [scan_eq_filter, mem_allSyms]

theorem scan_pairwise_lt : (scan freq).Pairwise fun x y => x.toNat < y.toNat := by
  rw [scan_eq_filter]
  exact allSyms_pairwise_lt.filter _

/-- The scan lists no symbol twice. -/
theorem scan_nodup : (scan freq).Nodup :=
  (scan_pairwise_lt freq).imp fun hlt heq => hlt.ne (congrArg BitVec.toNat heq)

theorem distinct_le : distinct freq ≤ 256 := by
  rw [distinct, scan_eq_filter, ← allSyms_length]
  exact List.length_filter_le _ _

/-- The counts of the present symbols add up to the sum of all counts (R139). -/
theorem totalCount_eq_sum_scan :
    totalCount freq = ((scan freq).map fun x => (Table.get freq x).toNat).sum := by
  rw [totalCount, Table.toList_eq_map_get, scan_eq_filter]
  generalize allSyms = l
  induction l with
  | nil => rfl
  | cons x l ih => by_cases hx : Table.get freq x = 0 <;> simp_all

/-- The sum of all counts fits 24 bits when at most 255 symbols are present (R142). -/
theorem totalCount_lt (h : distinct freq ≤ 255) : totalCount freq < 2 ^ 24 := by
  have hsum : totalCount freq ≤ distinct freq * 65535 := by
    rw [totalCount_eq_sum_scan]
    simpa [distinct] using List.sum_le_card_nsmul ((scan freq).map fun x => (Table.get freq x).toNat) 65535
      fun c hc => by
        obtain ⟨x, -, rfl⟩ := List.mem_map.1 hc
        exact Nat.le_of_lt_succ (Table.get freq x).isLt
  omega

-- ======================================================= leaves

/-- The leaf of a symbol of the scan at its position (R132). -/
theorem leaves_eq_map_zipIdx_scan :
    leaves freq = (scan freq).zipIdx.map fun xi => ⟨(Table.get freq xi.1).toNat, xi.2, .leaf xi.1⟩ := by
  simp [leaves, counted_eq_map_scan, List.zipIdx_map, Function.comp_def]

theorem leaves_length : (leaves freq).length = distinct freq := by
  simp [leaves_eq_map_zipIdx_scan, distinct]

end Scan

-- ======================================================= the queue

section Queue
variable {x y z a b : QNode} {q zs rest : List QNode} {passes k : Nat}

/-- A node that does not come before `y` does not come before an `x` that does. -/
theorem QNode.not_before_of_before (hxy : x.before y) (hzy : ¬ z.before y) : ¬ z.before x := by
  simp only [QNode.before] at *
  omega

/-- Of two nodes with different indices one has the lower key (R133). -/
theorem QNode.before_of_not_before (h : ¬ y.before x) (hindex : x.index ≠ y.index) : x.before y := by
  simp only [QNode.before] at *
  omega

/-- Popping takes one member out of the queue and keeps the others. -/
theorem popLowest_perm (x : QNode) (q : List QNode) :
    (x :: q).Perm ((popLowest x q).1 :: (popLowest x q).2) := by
  induction q generalizing x with
  | nil => exact .refl _
  | cons y q ih =>
    simp only [popLowest]
    split
    · exact .refl _
    · exact ((ih y).cons x).trans (.swap _ _ _)

/-- No member that stays in the queue has a lower key than the one popped (R133). -/
theorem popLowest_lowest (x : QNode) (q : List QNode) :
    ∀ z ∈ (popLowest x q).2, ¬ z.before (popLowest x q).1 := by
  induction q generalizing x with
  | nil => simp [popLowest]
  | cons y q ih =>
    simp only [popLowest]
    split
    next hx =>
      intro z hz
      refine QNode.not_before_of_before hx ?_
      rcases List.mem_cons.1 ((popLowest_perm y q).mem_iff.1 hz) with rfl | hz
      · simp [QNode.before]
      · exact ih y z hz
    next hx =>
      intro z hz
      rcases List.mem_cons.1 hz with rfl | hz
      · exact hx
      · exact ih y z hz

/-- Where indices are distinct, the popped member has a lower key than every other (R133). -/
theorem popLowest_before (hnodup : ((x :: q).map QNode.index).Nodup) :
    ∀ z ∈ (popLowest x q).2, (popLowest x q).1.before z := by
  intro z hz
  rw [((popLowest_perm x q).map _).nodup_iff, List.map_cons, List.nodup_cons] at hnodup
  exact QNode.before_of_not_before (popLowest_lowest x q z hz) fun hindex =>
    hnodup.1 (hindex ▸ List.mem_map_of_mem hz)

/-- The member popped second stood in the queue the first pop left. -/
theorem mem_of_popLowest_eq (h : popLowest z zs = (b, rest)) : b ∈ z :: zs := by
  have hperm := popLowest_perm z zs
  rw [h] at hperm
  exact hperm.mem_iff.2 List.mem_cons_self

/-- A merge pass takes the nodes that two pops give (R134). -/
theorem mergeLoop_succ (hfirst : popLowest x q = (a, z :: zs)) (hsecond : popLowest z zs = (b, rest)) :
    mergeLoop (passes + 1) k x q = mergeLoop passes (k + 1) (merge k a b) rest := by
  simp [mergeLoop, hfirst, hsecond]

/-- The induction over the merge loop, once: what is true of the queue and the next node's index whatever
the queue's order, and stays true when any two members are merged, is true of the root alone at the end
(R134, R136). -/
theorem mergeLoop_carries {P : Nat → List QNode → Prop}
    (hperm : ∀ {k l l'}, List.Perm l l' → P k l → P k l')
    (hmerge : ∀ {k a b rest}, P k (a :: b :: rest) → P (k + 1) (merge k a b :: rest))
    (hq : q.length = passes) (h : P k (x :: q)) : P (k + passes) [mergeLoop passes k x q] := by
  induction passes generalizing k x q with
  | zero =>
    obtain rfl := List.length_eq_zero_iff.1 hq
    exact h
  | succ passes ih =>
    rcases hfirst : popLowest x q with ⟨a, l⟩
    have hpa : (x :: q).Perm (a :: l) := by simpa [hfirst] using popLowest_perm x q
    have hl : l.length = passes + 1 := by simpa [hq] using hpa.length_eq.symm
    obtain ⟨z, zs, rfl⟩ := List.exists_cons_of_length_eq_add_one hl
    rcases hsecond : popLowest z zs with ⟨b, rest⟩
    have hpb : (z :: zs).Perm (b :: rest) := by simpa [hsecond] using popLowest_perm z zs
    have hrest : rest.length = passes := by
      simpa [hl] using hpb.length_eq.symm
    rw [mergeLoop_succ hfirst hsecond, Nat.add_comm passes, ← Nat.add_assoc]
    exact ih hrest (hmerge (hperm (hpa.trans (hpb.cons a)) h))

end Queue

-- ======================================================= the root

section Root
variable {freq : Table Count} {root : QNode} {x : Sym}

/-- What the merge loop carries from the leaves holds of the root, `2n-1` being the index no node has got
yet (R136). -/
theorem rootOf_carries {P : Nat → List QNode → Prop}
    (hperm : ∀ {k l l'}, List.Perm l l' → P k l → P k l')
    (hmerge : ∀ {k a b rest}, P k (a :: b :: rest) → P (k + 1) (merge k a b :: rest))
    (hroot : rootOf freq = some root) (h : P (distinct freq) (leaves freq)) :
    P (2 * distinct freq - 1) [root] := by
  have hlength := leaves_length freq
  unfold rootOf at hroot
  split at hroot
  · cases hroot
  next x q hleaves =>
    cases hroot
    rw [hleaves] at h hlength
    rw [← hlength] at h ⊢
    have hlast : 2 * (x :: q).length - 1 = q.length + 1 + q.length := by
      rw [List.length_cons]
      omega
    rw [hlast]
    exact mergeLoop_carries hperm hmerge rfl h

/-- A present symbol gives the tree a root. -/
theorem exists_rootOf (h : 1 ≤ distinct freq) : ∃ root, rootOf freq = some root := by
  rw [← leaves_length] at h
  unfold rootOf
  split
  next hleaves => simp [hleaves] at h
  · exact ⟨_, rfl⟩

/-- The symbols at the leaves of the trees of a queue. -/
def queueSyms (q : List QNode) : List Sym := q.flatMap fun n => n.tree.syms

/-- The initial queue holds the scan, leaf by leaf (R132). -/
theorem queueSyms_leaves (freq : Table Count) : queueSyms (leaves freq) = scan freq := by
  simp [queueSyms, leaves_eq_map_zipIdx_scan, List.flatMap_map, Tree.syms, ← List.map_eq_flatMap]

/-- Merging two members keeps the symbols (R134). -/
theorem queueSyms_merge (k : Nat) (a b : QNode) (rest : List QNode) :
    queueSyms (merge k a b :: rest) = queueSyms (a :: b :: rest) := by
  simp [queueSyms, merge, Tree.syms]

/-- The tree has the present symbols at its leaves, each once. -/
theorem rootOf_syms_perm (hroot : rootOf freq = some root) : root.tree.syms.Perm (scan freq) := by
  have hcarried : (queueSyms [root]).Perm (scan freq) :=
    rootOf_carries (P := fun _ q => (queueSyms q).Perm (scan freq))
      (fun hll' hl => (hll'.flatMap_right _).symm.trans hl)
      (fun hl => queueSyms_merge .. ▸ hl) hroot (.of_eq (queueSyms_leaves freq))
  simpa [queueSyms] using hcarried

/-- With one present symbol the tree is its leaf, no node being made above it (R138). -/
theorem rootOf_of_scan_eq_singleton (h : scan freq = [x]) :
    (rootOf freq).map QNode.tree = some (.leaf x) := by
  simp [rootOf, leaves_eq_map_zipIdx_scan, h, mergeLoop]

end Root

-- ======================================================= codes

section Codes
variable {x : Sym} {bits : BitString}

/-- A tree has a path to exactly the symbols at its leaves. -/
theorem Tree.path_isSome_iff (t : Tree) (x : Sym) : (t.path x).isSome = true ↔ x ∈ t.syms := by
  induction t with
  | leaf s => simp [Tree.path, Tree.syms, eq_comm (a := s)]
  | node l r ihl ihr =>
    rw [Tree.syms, List.mem_append, ← ihl, ← ihr]
    cases hl : l.path x <;> simp [Tree.path, hl]

/-- A tree has a code for exactly the symbols at its leaves. -/
theorem Tree.code_isSome_iff (t : Tree) (x : Sym) : (t.code x).isSome = true ↔ x ∈ t.syms := by
  cases t with
  | leaf s => simp [Tree.code, Tree.syms, eq_comm (a := s)]
  | node l r => exact Tree.path_isSome_iff _ x

/-- Where every symbol has one leaf, its path is the one walk that ends there (R137). -/
theorem Tree.path_eq_some_iff_walk {t : Tree} (hnodup : t.syms.Nodup) :
    t.path x = some bits ↔ t.walk bits = some (.leaf x) := by
  induction t generalizing bits with
  | leaf s => cases bits <;> simp [Tree.path, Tree.walk]
  | node l r ihl ihr =>
    obtain ⟨hl, hr, hdisjoint⟩ := List.nodup_append.1 hnodup
    rcases bits with _ | ⟨_ | _, bits⟩
    · cases hp : l.path x <;> simp [Tree.path, Tree.walk, hp]
    · rw [Tree.walk, ← ihl hl]
      cases hp : l.path x <;> simp [Tree.path, hp]
    · rw [Tree.walk, ← ihr hr]
      cases hp : l.path x with
      | none => simp [Tree.path, hp]
      | some p =>
        have hxl : x ∈ l.syms := (Tree.path_isSome_iff l x).1 (by simp [hp])
        have hxr : r.path x = none := by
          rw [← Option.not_isSome_iff_eq_none, Tree.path_isSome_iff]
          exact fun hxr => hdisjoint x hxl x hxr rfl
        simp [Tree.path, hp, hxr]

/-- A tree with two or more leaves gives paths as codes. -/
theorem Tree.code_eq_path {t : Tree} (h : 2 ≤ t.syms.length) (x : Sym) : t.code x = t.path x := by
  cases t with
  | leaf s => simp [Tree.syms] at h
  | node l r => rfl

variable {freq : Table Count} {root : QNode}

/-- The entry of a present symbol is the code the tree gives it (R139). -/
theorem get_codeTable_of_present (hroot : rootOf freq = some root) (hx : present freq x) :
    Table.get (codeTable freq) x = root.tree.code x := by
  rw [codeTable, hroot]
  exact (Table.get_ofSyms _ x).trans (if_pos hx)

/-- An absent symbol has no entry (R139). -/
theorem get_codeTable_of_absent (hx : ¬ present freq x) : Table.get (codeTable freq) x = none := by
  unfold codeTable
  split
  · exact Table.get_replicate none x
  · exact (Table.get_ofSyms _ x).trans (if_neg hx)

/-- The code table is valid exactly for the present symbols (R139). -/
theorem get_codeTable_isSome_iff (freq : Table Count) (x : Sym) :
    (Table.get (codeTable freq) x).isSome = true ↔ present freq x := by
  by_cases hx : present freq x
  · have hscan : x ∈ scan freq := (mem_scan freq).2 hx
    obtain ⟨root, hroot⟩ := exists_rootOf (List.length_pos_of_mem hscan)
    rw [get_codeTable_of_present hroot hx, Tree.code_isSome_iff, (rootOf_syms_perm hroot).mem_iff]
    exact iff_of_true hscan hx
  · rw [get_codeTable_of_absent hx]
    exact iff_of_false nofun hx

end Codes

-- ======================================================= the ends of BUILD

section Ends
variable {b : Block} {s t : State}

/-- With no present symbol `BUILD` is the fault `EmptyInput` (R131). -/
theorem Block.build_of_none (h : distinct b.freq = 0) : b.build = raise b .emptyInput 0 :=
  if_pos h

/-- With all 256 symbols present `BUILD` is the fault `AlphabetOverflow` (R131). -/
theorem Block.build_of_all (h : distinct b.freq = 256) : b.build = raise b .alphabetOverflow 0 := by
  simp [Block.build, h]

/-- With 1 to 255 present symbols `BUILD` writes the codes and answers their number (R139). -/
theorem Block.build_of_some (h1 : 1 ≤ distinct b.freq) (h255 : distinct b.freq ≤ 255) :
    b.build = respond b.writeCodes (BitVec.ofNat 32 (distinct b.freq)) [] := by
  rw [Block.build, if_neg (by omega), if_neg (by omega)]

/-- A `BUILD` of 1 to 255 present symbols leaves the derived code table (R139). -/
theorem code_of_exec_build (h1 : 1 ≤ distinct s.block.freq) (h255 : distinct s.block.freq ≤ 255)
    (ht : exec .build s = .next t) : t.block.code = codeTable s.block.freq := by
  rw [exec_of_resultOf_eq_respond (i := .build) (Block.build_of_some h1 h255)] at ht
  cases ht
  rfl

end Ends

end Sys2Proof.Machine

open Sys2Proof Sys2Proof.Machine

/-- Settles O25: the scan is a filter of all symbols, and the faults are the first two tests of `BUILD`. -/
theorem scanAndItsFaults : Obligations.ScanAndItsFaults := by
  intro s
  exact ⟨fun x => mem_scan s.block.freq, scan_pairwise_lt s.block.freq,
    fun hnone => exec_of_resultOf_eq_raise (i := .build) (Block.build_of_none hnone),
    fun hall => exec_of_resultOf_eq_raise (i := .build) (Block.build_of_all hall),
    distinct_le s.block.freq⟩

/-- Settles O26: the leaves are the scan with positions, and the count of a scanned symbol is not 0. -/
theorem leavesFollowTheScan : Obligations.LeavesFollowTheScan := by
  refine fun freq => ⟨leaves_length freq, fun i x hx => ⟨?_, ?_, ?_⟩⟩
  · simp [leaves_eq_map_zipIdx_scan, hx]
  · have hpresent : present freq x := (mem_scan freq).1 (List.mem_of_getElem? hx)
    exact Nat.pos_of_ne_zero fun hzero => hpresent (BitVec.eq_of_toNat_eq hzero)
  · exact Nat.le_of_lt_succ (Table.get freq x).isLt

/-- Settles O27: popping permutes the queue, and what it pops is before every other member. -/
theorem lowestKeyIsPoppedFirst : Obligations.LowestKeyIsPoppedFirst :=
  fun x q hnodup => ⟨popLowest_perm x q, popLowest_before hnodup⟩

/-- Settles O28: the pass is `mergeLoop_succ`, and the second node popped was left in the queue by the
first pop. -/
theorem firstPoppedIsTheLeftChild : Obligations.FirstPoppedIsTheLeftChild := by
  intro passes k x y z a b q zs rest hfirst hsecond
  have hb : b ∈ (popLowest x (y :: q)).2 := by
    rw [hfirst]
    exact mem_of_popLowest_eq hsecond
  refine ⟨mergeLoop_succ hfirst hsecond, ?_, fun hnodup hweight => ?_⟩
  · have hlowest : ¬ b.before a := by simpa [hfirst] using popLowest_lowest x (y :: q) b hb
    exact Nat.le_of_not_lt fun hlt => hlowest (.inl hlt)
  · have hbefore : a.before b := by simpa [hfirst] using popLowest_before hnodup b hb
    rcases hbefore with hlt | ⟨-, hindex⟩
    · exact absurd hweight hlt.ne
    · exact hindex

/-- Settles O30: the entry is the path in the tree, whose leaves are the present symbols, each once, so
that the path is the one walk to the leaf. -/
theorem codesAreRootToLeafPaths : Obligations.CodesAreRootToLeafPaths := by
  intro s t root h2 h255 hroot ht x hx
  have hperm := rootOf_syms_perm hroot
  have hentry : Table.get t.block.code x = root.tree.path x := by
    rw [code_of_exec_build (Nat.le_of_succ_le h2) h255 ht, get_codeTable_of_present hroot hx,
      Tree.code_eq_path (h2.trans_eq hperm.length_eq.symm)]
  have hsome : (root.tree.path x).isSome = true := by
    rw [Tree.path_isSome_iff, hperm.mem_iff, mem_scan]
    exact hx
  obtain ⟨bits, hbits⟩ := Option.isSome_iff_exists.1 hsome
  have hwalk {other : BitString} : root.tree.path x = some other ↔ root.tree.walk other = some (.leaf x) :=
    Tree.path_eq_some_iff_walk (hperm.nodup_iff.2 (scan_nodup _))
  refine ⟨bits, hentry.trans hbits, hwalk.1 hbits, fun other hother => ?_⟩
  exact Option.some.inj ((hwalk.2 hother).symm.trans hbits)

/-- Settles O31: the scan is the one symbol, the tree its leaf, and a bare leaf's code is the one bit 0. -/
theorem singleSymbolGetsTheCodeZero : Obligations.SingleSymbolGetsTheCodeZero := by
  intro s t x h1 hx ht
  obtain ⟨y, hscan⟩ := List.length_eq_one_iff.1 h1
  obtain rfl : x = y := by
    simpa [hscan] using (mem_scan s.block.freq).2 hx
  have htree := rootOf_of_scan_eq_singleton hscan
  refine ⟨?_, htree⟩
  obtain ⟨root, hroot, hleaf⟩ := Option.map_eq_some_iff.1 htree
  rw [code_of_exec_build h1.ge (h1.trans_le (by decide)) ht, get_codeTable_of_present hroot hx, hleaf]
  exact if_pos rfl

/-- Settles O32: the write-back is the block `BUILD` leaves, and neither the number of symbols nor the sum
of the counts is cut to its field. -/
theorem buildWritesTheCodeTable : Obligations.BuildWritesTheCodeTable := by
  refine ⟨rfl, fun s h1 h255 => ?_⟩
  refine ⟨s.block.writeCodes, _, exec_of_resultOf_eq_respond (i := .build) (Block.build_of_some h1 h255),
    ?_, rfl, get_codeTable_isSome_iff s.block.freq, ?_, ?_, rfl, rfl, rfl, rfl⟩
  · exact Nat.mod_eq_of_lt (by omega)
  · exact Nat.mod_eq_of_lt (by omega)
  · exact Nat.mod_eq_of_lt (totalCount_lt s.block.freq h255)

end

section
/-! The code-ROM family (spec/42_code_rom.md): the binary digits of a bit-string's number, the nine words of
a code-ROM entry, the ways `CODE_RD` and `ENC_SYM` end, and the two commands. -/

namespace Sys2Proof.Machine

-- ======================================================= bit-strings as numbers

/-- A last bit goes in at the low end of the number. -/
theorem natOfBits_concat (bs : BitString) (b : Bool) : natOfBits (bs ++ [b]) = (natOfBits bs).bit b := by
  rw [natOfBits, List.foldl_append, Nat.bit_val]
  rfl

/-- The binary digits of the number a bit-string spells are its bits, the last one lowest (R9). -/
theorem natOfBits_testBit (bs : BitString) (k : Nat) :
    (natOfBits bs).testBit k = bs.reverse.getD k false := by
  induction bs using List.reverseRecOn generalizing k with
  | nil => exact Nat.zero_testBit k
  | append_singleton bs b ih =>
    rw [natOfBits_concat, List.reverse_concat]
    cases k with
    | zero => exact Nat.testBit_bit_zero b _
    | succ k => rw [Nat.testBit_bit_succ, ih, List.getD_cons_succ]

/-- Bit `i` of a bit-string stands as many places above the lowest as bits follow it (R9). -/
theorem natOfBits_testBit_of_lt {bs : BitString} {i : Nat} (h : i < bs.length) :
    (natOfBits bs).testBit (bs.length - 1 - i) = bs.getD i false := by
  rw [natOfBits_testBit, List.getD_reverse _ (by omega)]
  congr 1
  omega

/-- Padding a list with the default does not change what its places read. -/
theorem getD_takeD {α : Type} (l : List α) (a : α) {n i : Nat} (h : i < n) :
    (l.takeD n a).getD i a = l.getD i a := by
  induction n generalizing l i with
  | zero => exact absurd h i.not_lt_zero
  | succ n ih =>
    rw [List.takeD_succ]
    cases i with
    | zero => cases l <;> rfl
    | succ i =>
      rw [List.getD_cons_succ, ih _ (Nat.lt_of_succ_lt_succ h)]
      cases l <;> rfl

-- ======================================================= the words of a code-ROM entry

/-- `CW[255-i]` is code bit `i`, and 0 past the code or in an invalid entry (R24). -/
theorem CodeEntry.cw_getLsbD (e : CodeEntry) {i : Nat} (h : i < 256) :
    (CodeEntry.cw e).getLsbD (255 - i) = (e.getD []).getD i false := by
  have hlen : ((e.getD []).takeD Config.cwWidth false).length = Config.cwWidth := List.takeD_length _ _ _
  have hbit := natOfBits_testBit_of_lt (h.trans_eq hlen.symm)
  rw [hlen, getD_takeD (n := Config.cwWidth) _ false h] at hbit
  rw [CodeEntry.cw, BitVec.getLsbD_ofNat, decide_eq_true (by omega), Bool.true_and]
  exact hbit

/-- Bit `31-k` of word `j` is code bit `32(j-1) + k` (R66, R160). -/
theorem CodeEntry.cwWord_getLsbD (e : CodeEntry) {j k : Nat} (hj : 1 ≤ j) (hj8 : j ≤ 8) (hk : k < 32) :
    (CodeEntry.cwWord e j).getLsbD (31 - k) = (e.getD []).getD (32 * (j - 1) + k) false := by
  have hplace : 256 - 32 * j + (31 - k) = 255 - (32 * (j - 1) + k) := by omega
  rw [CodeEntry.cwWord, BitVec.getLsbD_extractLsb', decide_eq_true (by omega), Bool.true_and, hplace,
    CodeEntry.cw_getLsbD e (by omega)]

/-- `LEN` holds the length of a code that fits it whole (R23, R24). -/
theorem CodeEntry.len_some_toNat {bits : BitString} (h : bits.length < 256) :
    (CodeEntry.len (some bits)).toNat = bits.length :=
  Nat.mod_eq_of_lt h

/-- Word 0 of a code that `LEN` can hold is its length with `VALID` above it (R160). -/
theorem CodeEntry.headWord_some_toNat {bits : BitString} (h : bits.length < 256) :
    (CodeEntry.headWord (some bits)).toNat = 0x100 + bits.length := by
  have hplaced : CodeEntry.headWord (some bits) = 0x100 ||| place 0 (CodeEntry.len (some bits)) := by
    rw [place, BitVec.shiftLeft_zero]
    rfl
  rw [hplaced, toNat_or_place _ (by decide) (by decide), Nat.pow_zero, Nat.mul_one,
    CodeEntry.len_some_toNat h]
  rfl

/-- Every word of an invalid entry is 0 (R24, R160). -/
theorem CodeEntry.word_none {widx : BitVec 4} (h : widx.toNat ≤ 8) : CodeEntry.word none widx = 0 := by
  rw [CodeEntry.word]
  split
  · rfl
  · refine BitVec.eq_of_getLsbD_eq fun i hi => ?_
    obtain ⟨k, hk, rfl⟩ : ∃ k, k < 32 ∧ i = 31 - k := ⟨31 - i, by omega, by omega⟩
    rw [CodeEntry.cwWord_getLsbD none (by omega) h hk]
    simp

-- ======================================================= how the commands end

section Lookups
variable {b : Block} {sym : Sym} {widx : BitVec 4} {bits : BitString}

/-- An illegal `WIDX` is the fault `IllegalCommand` (R160). -/
theorem Block.codeRd_of_not_widxLegal (h : ¬ widxLegal widx) :
    b.codeRd sym widx = raise b .illegalCommand 0 :=
  if_pos h

/-- With `READY` = 0 a legal `CODE_RD` is the fault `NotReady` (R160). -/
theorem Block.codeRd_of_not_ready (h : widxLegal widx) (hready : b.ready = false) :
    b.codeRd sym widx = raise b .notReady 0 := by
  rw [Block.codeRd, if_neg (not_not_intro h), if_pos hready]

/-- With `READY` = 1 a legal `CODE_RD` answers the word it selects (R160). -/
theorem Block.codeRd_of_ready (h : widxLegal widx) (hready : b.ready = true) :
    b.codeRd sym widx = respond b (CodeEntry.word (Table.get b.code sym) widx) [] := by
  rw [Block.codeRd, if_neg (not_not_intro h), if_neg (by simp [hready])]

/-- With `READY` = 0 `ENC_SYM` is the fault `NotReady` (R161). -/
theorem Block.encSym_of_not_ready (hready : b.ready = false) : b.encSym sym = raise b .notReady 0 :=
  if_pos hready

/-- A symbol without a code is the fault `NoCode` (R161). -/
theorem Block.encSym_of_no_code (hready : b.ready = true) (hcode : Table.get b.code sym = none) :
    b.encSym sym = raise b .noCode 0 := by
  simp [Block.encSym, hready, hcode]

/-- With a code to push, a closed packer is the fault `PackerClosed` (R161). -/
theorem Block.encSym_of_closed (hready : b.ready = true) (hcode : Table.get b.code sym = some bits)
    (hclosed : b.packer.closed = true) : b.encSym sym = raise b .packerClosed 0 := by
  simp [Block.encSym, hready, hcode, hclosed]

/-- With an open packer, a byte count above the limit is the fault `PayloadOverflow` (R161, R239). -/
theorem Block.encSym_of_overflow (hready : b.ready = true) (hcode : Table.get b.code sym = some bits)
    (hopen : b.packer.closed = false) (hover : 2 ^ 32 - 1 < byteCntAfter b.packer bits.length) :
    b.encSym sym = raise b .payloadOverflow 0 := by
  have hmax : 4294967295 < byteCntAfter b.packer bits.length := hover
  simp [Block.encSym, hready, hcode, hopen, hmax]

/-- With every test passed `ENC_SYM` pushes the code and answers `LEN` (R161). -/
theorem Block.encSym_of_fits (hready : b.ready = true) (hcode : Table.get b.code sym = some bits)
    (hopen : b.packer.closed = false) (hfits : byteCntAfter b.packer bits.length ≤ 2 ^ 32 - 1) :
    b.encSym sym = respond { b with packer := (pushBits b.packer bits).1 }
      ((CodeEntry.len (some bits)).setWidth 32) (pushBits b.packer bits).2 := by
  have hmax : ¬ 4294967295 < byteCntAfter b.packer bits.length := Nat.not_lt.2 hfits
  simp [Block.encSym, hready, hcode, hopen, hmax]

end Lookups

end Sys2Proof.Machine

open Sys2Proof Sys2Proof.Machine

/-- Settles O39: the data is the selected word of the entry, read by the lemmas on its words. -/
theorem codeRdReadsOneWord : Obligations.CodeRdReadsOneWord := by
  refine fun sym widx => ⟨?_, fun s => ⟨fun h9 => ?_, fun h8 hready => ?_, fun h8 hready => ?_⟩⟩
  · simp only [encode_toNat, Instr.opcode, Instr.operandBits]
    omega
  · exact exec_of_resultOf_eq_raise (i := .codeRd sym widx) (Block.codeRd_of_not_widxLegal (Nat.not_le.2 h9))
  · exact exec_of_resultOf_eq_raise (i := .codeRd sym widx) (Block.codeRd_of_not_ready h8 hready)
  · refine ⟨CodeEntry.word (Table.get s.block.code sym) widx,
      exec_of_resultOf_eq_respond (i := .codeRd sym widx) (Block.codeRd_of_ready h8 hready),
      fun hnone => ?_, fun bits hbits hlen => ⟨fun h0 => ?_, fun h1 k hk => ?_⟩⟩
    · rw [hnone, CodeEntry.word_none h8]
    · rw [hbits, CodeEntry.word, if_pos h0, CodeEntry.headWord_some_toNat (by omega)]
    · rw [hbits, CodeEntry.word, if_neg (by omega), CodeEntry.cwWord_getLsbD _ h1 h8 hk]
      rfl

/-- Settles O40: one lemma for each way the tests of `ENC_SYM` turn out; `LEN` holds a code of at most 254
bits whole. -/
theorem encSymPushesTheCode : Obligations.EncSymPushesTheCode := by
  refine fun sym => ⟨?_, fun s => ⟨fun hready => ?_, fun hready hnone => ?_,
    fun bits hready hbits => ⟨fun hclosed => ?_, fun hopen hover => ?_, fun hopen hfits => ?_⟩⟩⟩
  · simp only [encode_toNat, Instr.opcode, Instr.operandBits]
    omega
  · exact exec_of_resultOf_eq_raise (i := .encSym sym) (Block.encSym_of_not_ready hready)
  · exact exec_of_resultOf_eq_raise (i := .encSym sym) (Block.encSym_of_no_code hready hnone)
  · exact exec_of_resultOf_eq_raise (i := .encSym sym) (Block.encSym_of_closed hready hbits hclosed)
  · exact exec_of_resultOf_eq_raise (i := .encSym sym) (Block.encSym_of_overflow hready hbits hopen hover)
  · refine ⟨(CodeEntry.len (some bits)).setWidth 32,
      exec_of_resultOf_eq_respond (i := .encSym sym) (Block.encSym_of_fits hready hbits hopen hfits),
      fun hlen => ?_⟩
    rw [BitVec.toNat_setWidth_of_le (by decide), CodeEntry.len_some_toNat (by omega)]

end

section
/-! The bit-packer family (spec/43_bitpacker.md): the low bits of a value as a bit-string, one turn of
`push_bits` and what it adds up to, the trailing mask, the ways `PACK_BITS` and `PACK_FLUSH` end, and the
three commands. -/

namespace Sys2Proof.Machine

-- ======================================================= the low bits of a value

/-- The bit-string `v[n-1], ..., v[0]`: the form of a byte's bits (R180), of the held bits (R31) and of a
literal (R181). -/
def lowBits {w : Nat} (n : Nat) (v : BitVec w) : BitString :=
  (List.range n).map fun i => v.getLsbD (n - 1 - i)

theorem byteBits_eq_lowBits (v : Byte) : byteBits v = lowBits 8 v := rfl

theorem heldBits_eq_lowBits (p : Packer) : heldBits p = lowBits p.nb.toNat p.acc := rfl

theorem literalBits_eq_lowBits (n : BitVec 5) (bits : BitVec 16) :
    literalBits n bits = lowBits n.toNat bits := rfl

@[simp] theorem lowBits_zero {w : Nat} (v : BitVec w) : lowBits 0 v = [] := rfl

@[simp] theorem lowBits_length {w : Nat} (n : Nat) (v : BitVec w) : (lowBits n v).length = n := by
  simp [lowBits]

/-- The highest of the bits stands first. -/
theorem lowBits_getD {w n k : Nat} (v : BitVec w) (h : k < n) :
    (lowBits n v).getD k false = v.getLsbD (n - 1 - k) := by
  simp [lowBits, h]

/-- A bit shifted in at the bottom follows the bits that stood there. -/
theorem lowBits_shiftConcat {w n : Nat} (v : BitVec w) (b : Bool) (h : n < w) :
    lowBits (n + 1) (v.shiftConcat b) = lowBits n v ++ [b] := by
  rw [lowBits, List.range_succ, List.map_append, lowBits]
  congr 1
  · refine List.map_congr_left fun i hi => ?_
    have hin : i < n := List.mem_range.1 hi
    have hprev : n + 1 - 1 - i - 1 = n - 1 - i := by omega
    rw [BitVec.getLsbD_shiftConcat, decide_eq_true (by omega), if_neg (by omega), hprev, Bool.true_and]
  · simp [BitVec.getLsbD_shiftConcat, Nat.zero_lt_of_lt h]

-- ======================================================= one bit

/-- The accumulator with one more bit at the bottom (R180). -/
theorem acc_shiftLeft_or (acc : BitVec 8) (b : Bool) :
    (acc <<< 1) ||| (BitVec.ofBool b).setWidth 8 = acc.shiftConcat b := by
  refine BitVec.eq_of_getLsbD_eq fun i hi => ?_
  rw [BitVec.getLsbD_shiftConcat]
  cases i with
  | zero => simp
  | succ i => simp [hi, BitVec.getLsbD_eq_getElem (Nat.lt_of_succ_lt hi)]

section PushBits
variable (p : Packer) (b : Bool) (bs : BitString)

/-- One turn of the loop of `push_bits` (R180): the bit fills the byte, which leaves, or it is held. -/
theorem pushBit_cases :
    (p.nb.toNat = 7 ∧ pushBit (p, []) b =
      ({ p with acc := 0, nb := 0, byteCnt := p.byteCnt + 1 }, [p.acc.shiftConcat b])) ∨
    (p.nb.toNat < 7 ∧ (p.nb + 1).toNat = p.nb.toNat + 1 ∧ pushBit (p, []) b =
      ({ p with acc := p.acc.shiftConcat b, nb := p.nb + 1 }, [])) := by
  simp only [pushBit, acc_shiftLeft_or, List.nil_append]
  split
  next hfull => exact .inl ⟨by omega, rfl⟩
  next hroom =>
    have hlt : p.nb.toNat < 7 := by omega
    exact .inr ⟨hlt, BitVec.toNat_add_of_lt (Nat.succ_lt_succ hlt), rfl⟩

/-- The held bits and the bit after them are the bits of the byte that leaves, if any, and the bits then
held. -/
theorem heldBits_concat :
    heldBits p ++ [b] = (pushBit (p, []) b).2.flatMap byteBits ++ heldBits (pushBit (p, []) b).1 := by
  rcases pushBit_cases p b with ⟨hnb, hpush⟩ | ⟨hnb, hsucc, hpush⟩
  · simp [hpush, heldBits_eq_lowBits, byteBits_eq_lowBits, hnb, lowBits_shiftConcat]
  · have hroom : p.nb.toNat < 8 := Nat.lt_succ_of_lt hnb
    simp only [hpush, heldBits_eq_lowBits, hsucc, lowBits_shiftConcat p.acc b hroom, List.flatMap_nil,
      List.nil_append]

/-- The byte count counts the byte that leaves. -/
theorem pushBit_byteCnt : (pushBit (p, []) b).1.byteCnt =
    p.byteCnt + BitVec.ofNat 32 (pushBit (p, []) b).2.length := by
  rcases pushBit_cases p b with ⟨-, hpush⟩ | ⟨-, -, hpush⟩ <;> simp [hpush]

/-- A bit keeps `ACC` below 2^`NB` (R36). -/
theorem pushBit_acc_lt (h : p.acc.toNat < 2 ^ p.nb.toNat) :
    (pushBit (p, []) b).1.acc.toNat < 2 ^ (pushBit (p, []) b).1.nb.toNat := by
  rcases pushBit_cases p b with ⟨-, hpush⟩ | ⟨hnb, hsucc, hpush⟩
  · simp [hpush]
  · rw [hpush, hsucc]
    exact BitVec.toNat_shiftConcat_lt_of_lt (Nat.lt_succ_of_lt hnb) h

-- ======================================================= a bit-string

/-- The held bits and the bits after them are the bits of the bytes that leave, and the bits then held
(R180). -/
theorem heldBits_append :
    heldBits p ++ bs = (pushBits p bs).2.flatMap byteBits ++ heldBits (pushBits p bs).1 := by
  induction bs generalizing p with
  | nil => simp
  | cons b bs ih =>
    rw [pushBits_cons, List.append_cons, heldBits_concat, List.append_assoc, ih, List.flatMap_append,
      List.append_assoc]

/-- The bits of `bs` after the held ones make so many bytes, and so many bits are left over (R180). -/
theorem pushBits_count : 8 * (pushBits p bs).2.length + (pushBits p bs).1.nb.toNat =
    p.nb.toNat + bs.length := by
  have hbits := congrArg List.length (heldBits_append p bs)
  have hbyte : (fun v : Byte => (byteBits v).length) = fun _ => 8 :=
    funext fun v => lowBits_length 8 v
  simp only [List.length_append, List.length_flatMap, heldBits_eq_lowBits, lowBits_length, hbyte,
    List.map_const', List.sum_replicate, smul_eq_mul] at hbits
  omega

/-- One push emits (`NB` + `|bs|`) div 8 bytes (R180). -/
theorem pushBits_out_length : (pushBits p bs).2.length = (p.nb.toNat + bs.length) / 8 := by
  have hcount := pushBits_count p bs
  have hnb := (pushBits p bs).1.nb.isLt
  omega

/-- One push leaves (`NB` + `|bs|`) mod 8 bits (R180). -/
theorem pushBits_nb : (pushBits p bs).1.nb.toNat = (p.nb.toNat + bs.length) % 8 := by
  have hcount := pushBits_count p bs
  have hnb := (pushBits p bs).1.nb.isLt
  omega

/-- The byte count counts the bytes that leave, modulo its width (R33). -/
theorem pushBits_byteCnt :
    (pushBits p bs).1.byteCnt = p.byteCnt + BitVec.ofNat 32 (pushBits p bs).2.length := by
  induction bs generalizing p with
  | nil => simp
  | cons b bs ih =>
    rw [pushBits_cons, ih, pushBit_byteCnt, List.length_append, BitVec.ofNat_add, BitVec.add_assoc]

/-- A byte count that does not overflow is the one the caller's test computes (R180). -/
theorem pushBits_byteCnt_toNat (h : byteCntAfter p bs.length ≤ 2 ^ 32 - 1) :
    (pushBits p bs).1.byteCnt.toNat = byteCntAfter p bs.length := by
  unfold byteCntAfter at h ⊢
  rw [pushBits_byteCnt, pushBits_out_length, BitVec.toNat_add, BitVec.toNat_ofNat]
  omega

/-- A push keeps `ACC` below 2^`NB` (R36). -/
theorem pushBits_acc_lt (h : p.acc.toNat < 2 ^ p.nb.toNat) :
    (pushBits p bs).1.acc.toNat < 2 ^ (pushBits p bs).1.nb.toNat := by
  induction bs generalizing p with
  | nil => exact h
  | cons b bs ih =>
    rw [pushBits_cons]
    exact ih _ (pushBit_acc_lt p b h)

end PushBits

-- ======================================================= the trailing mask

/-- `MASK` as a number (R43). -/
theorem trailMask_toNat (trail : BitVec 4) :
    (trailMask trail).toNat = 0xFF00 / 2 ^ trail.toNat % 2 ^ 8 := by
  rw [trailMask, BitVec.toNat_and, BitVec.toNat_ushiftRight, Nat.shiftRight_eq_div_pow]
  exact Nat.and_two_pow_sub_one_eq_mod _ 8

/-- Register `TRAIL` as a number: `MASK` above `COUNT` (R43). -/
theorem trailWord_toNat (trail : BitVec 4) :
    (trailWord trail).toNat = 0xFF00 / 2 ^ trail.toNat % 2 ^ 8 * 2 ^ 8 + trail.toNat := by
  have hmask : (trailMask trail <<< 8).toNat = (trailMask trail).toNat * 2 ^ 8 := by
    have hvalue := trailMask_toNat trail
    rw [BitVec.toNat_shiftLeft, Nat.shiftLeft_eq]
    omega
  have hplaced : trailWord trail = (trailMask trail <<< 8) ||| place 0 trail := by
    rw [place, BitVec.shiftLeft_zero]
    rfl
  rw [hplaced, toNat_or_place trail (by decide) (by omega), hmask, trailMask_toNat, Nat.pow_zero,
    Nat.mul_one]

/-- `MASK` has a 1 in each of the `COUNT` high bits of its byte (R43). -/
theorem trailMask_getLsbD {trail : BitVec 4} {i : Nat} (hi : i < 8) (h : 8 ≤ trail.toNat + i)
    (ht : trail.toNat ≤ 8) : (trailMask trail).getLsbD i = true := by
  have hhigh : ∀ j < 16, 8 ≤ j → (0xFF00#32).getLsbD j = true := by decide
  have hlow : ∀ j < 8, (0xFF#32).getLsbD j = true := by decide
  rw [trailMask, BitVec.getLsbD_and, BitVec.getLsbD_ushiftRight, hhigh _ (by omega) h]
  exact hlow i hi

/-- A byte shifted left has zeros below. -/
theorem byte_shiftLeft_toNat_mod (v : Byte) {k : Nat} (hk : k ≤ 8) : (v <<< k).toNat % 2 ^ k = 0 := by
  rw [BitVec.toNat_shiftLeft, Nat.shiftLeft_eq, Nat.mod_mod_of_dvd _ (Nat.pow_dvd_pow 2 hk)]
  exact Nat.mul_mod_left _ _

/-- A byte with nothing below its `COUNT` high bits passes through `MASK` (R43). -/
theorem shiftLeft_and_trailMask (v : Byte) {trail : BitVec 4} (ht : trail.toNat ≤ 8) :
    (v <<< (8 - trail.toNat)).setWidth 32 &&& trailMask trail = (v <<< (8 - trail.toNat)).setWidth 32 := by
  refine BitVec.eq_of_getLsbD_eq fun i hi => ?_
  rw [BitVec.getLsbD_and, BitVec.getLsbD_setWidth, decide_eq_true hi, Bool.true_and]
  by_cases hbyte : i < 8
  · by_cases hpadding : i < 8 - trail.toNat
    · simp [BitVec.getLsbD_shiftLeft, hpadding]
    · rw [trailMask_getLsbD hbyte (by omega) ht, Bool.and_true]
  · rw [BitVec.getLsbD_of_ge _ i (Nat.not_lt.1 hbyte), Bool.false_and]

-- ======================================================= how the commands end

section Commands
variable {b : Block} {n : BitVec 5} {bits : BitVec 16}

/-- Illegal operands are the fault `IllegalCommand` (R181). -/
theorem Block.packBits_of_not_literalLegal (h : ¬ literalLegal n bits) :
    b.packBits n bits = raise b .illegalCommand 0 :=
  if_pos h

/-- With legal operands a closed packer is the fault `PackerClosed` (R181). -/
theorem Block.packBits_of_closed (h : literalLegal n bits) (hclosed : b.packer.closed = true) :
    b.packBits n bits = raise b .packerClosed 0 := by
  rw [Block.packBits, if_neg (not_not_intro h), if_pos hclosed]

/-- With an open packer, a byte count above the limit is the fault `PayloadOverflow` (R181, R239). -/
theorem Block.packBits_of_overflow (h : literalLegal n bits) (hopen : b.packer.closed = false)
    (hover : 2 ^ 32 - 1 < byteCntAfter b.packer n.toNat) :
    b.packBits n bits = raise b .payloadOverflow 0 := by
  rw [Block.packBits, if_neg (not_not_intro h), if_neg (by simp [hopen])]
  exact if_pos hover

/-- With every test passed `PACK_BITS` pushes its literal (R181). -/
theorem Block.packBits_of_fits (h : literalLegal n bits) (hopen : b.packer.closed = false)
    (hfits : byteCntAfter b.packer n.toNat ≤ 2 ^ 32 - 1) :
    b.packBits n bits = respond { b with packer := (pushBits b.packer (literalBits n bits)).1 } 0
      (pushBits b.packer (literalBits n bits)).2 := by
  rw [Block.packBits, if_neg (not_not_intro h), if_neg (by simp [hopen])]
  exact if_neg (Nat.not_lt.2 hfits)

/-- A second flush is the fault `PackerClosed` (R182). -/
theorem Block.packFlush_of_closed (hclosed : b.packer.closed = true) :
    b.packFlush = raise b .packerClosed 0 :=
  if_pos hclosed

/-- A byte to emit at the limit of the byte count is the fault `PayloadOverflow` (R182, R239). -/
theorem Block.packFlush_of_overflow (hopen : b.packer.closed = false) (hheld : 0 < b.packer.nb.toNat)
    (hmax : b.packer.byteCnt.toNat = 2 ^ 32 - 1) : b.packFlush = raise b .payloadOverflow 0 := by
  rw [Block.packFlush, if_neg (by simp [hopen])]
  exact if_pos ⟨hheld, hmax⟩

/-- With every test passed `PACK_FLUSH` ends the payload (R182). -/
theorem Block.packFlush_of_fits (hopen : b.packer.closed = false)
    (hfits : 0 < b.packer.nb.toNat → b.packer.byteCnt.toNat < 2 ^ 32 - 1) :
    b.packFlush = respond { b with packer := flushed b.packer } (trailWord (flushed b.packer).trail)
      (flushBytes b.packer) := by
  rw [Block.packFlush, if_neg (by simp [hopen])]
  exact if_neg fun ⟨hheld, hmax⟩ => (hfits hheld).ne hmax

variable (b) in
/-- `PACK_FLUSH` emits nothing (every fault, R242), or it ends the payload (R182). -/
theorem Block.packFlush_cases :
    b.packFlush.out = [] ∨
      (b.packFlush.block.packer = flushed b.packer ∧ b.packFlush.out = flushBytes b.packer) := by
  unfold Block.packFlush
  split
  · exact .inl rfl
  split
  · exact .inl rfl
  · exact .inr ⟨rfl, rfl⟩

end Commands

section Flush
variable {p : Packer}

/-- Held bits leave left-justified in one byte (R182). -/
theorem flushBytes_of_held (h : 0 < p.nb.toNat) : flushBytes p = [p.acc <<< (8 - p.nb.toNat)] :=
  if_pos h

/-- With no held bits no byte leaves (R182). -/
theorem flushBytes_of_empty (h : p.nb = 0) : flushBytes p = [] :=
  if_neg (by simp [h])

/-- A byte leaves only for held bits, and it is these, left-justified (R182). -/
theorem eq_of_flushBytes_eq_singleton {v : Byte} (h : flushBytes p = [v]) :
    0 < p.nb.toNat ∧ v = p.acc <<< (8 - p.nb.toNat) := by
  unfold flushBytes at h
  split at h
  next hheld => exact ⟨hheld, (List.singleton_inj.1 h).symm⟩
  next => cases h

/-- The trailing-bit count of a partial byte is `NB` (R182). -/
theorem flushed_trail_of_held (h : 0 < p.nb.toNat) : (flushed p).trail.toNat = p.nb.toNat := by
  simp only [flushed, if_pos h]
  exact BitVec.toNat_setWidth_of_le (by decide)

/-- The trailing-bit count without a partial byte is 8, or 0 for an empty payload (R182). -/
theorem flushed_trail_of_empty (h : p.nb = 0) :
    (flushed p).trail.toNat = if 0 < p.byteCnt.toNat then 8 else 0 := by
  have hnone : ¬ 0 < p.nb.toNat := by simp [h]
  simp only [flushed, if_neg hnone]
  split <;> rfl

/-- The byte count counts the partial byte (R182). -/
theorem flushed_byteCnt_of_held (h : 0 < p.nb.toNat) (hfits : p.byteCnt.toNat < 2 ^ 32 - 1) :
    (flushed p).byteCnt.toNat = p.byteCnt.toNat + 1 := by
  simp only [flushed, if_pos h]
  exact BitVec.toNat_add_of_lt (Nat.add_lt_of_lt_sub hfits)

/-- Without a partial byte the byte count stays (R182). -/
theorem flushed_byteCnt_of_empty (h : p.nb = 0) : (flushed p).byteCnt = p.byteCnt :=
  if_neg (by simp [h])

end Flush

end Sys2Proof.Machine

open Sys2Proof Sys2Proof.Machine

/-- Settles O41: the counts follow from the order of the bits, which an induction over them gives. -/
theorem pushBitsFillsBytesInOrder : Obligations.PushBitsFillsBytesInOrder := by
  intro p bs hfits
  exact ⟨pushBits_out_length p bs, pushBits_nb p bs, pushBits_byteCnt_toNat p bs hfits,
    heldBits_append p bs, pushBits_acc_lt p bs, pushBits_frame p bs⟩

/-- Settles O42: one lemma for each way the tests of `PACK_BITS` turn out; the bits are the literal's, the
highest first. -/
theorem packBitsPushesTheLiteral : Obligations.PackBitsPushesTheLiteral := by
  refine fun n bits => ⟨?_, fun s => ⟨fun hillegal => ?_, fun h1 h16 hbits => ?_⟩⟩
  · simp only [encode_toNat, Instr.opcode, Instr.operandBits]
    omega
  · have hliteral : ¬ literalLegal n bits := by
      rintro ⟨h1, h16, hbits⟩
      rcases hillegal with rfl | h17 | hset
      · exact absurd h1 (by decide)
      · exact absurd h16 (Nat.not_le.2 h17)
      · exact hset hbits
    exact exec_of_resultOf_eq_raise (i := .packBits n bits) (Block.packBits_of_not_literalLegal hliteral)
  · have hliteral : literalLegal n bits := ⟨h1, h16, hbits⟩
    refine ⟨fun hclosed => ?_, fun hopen hover => ?_, fun hopen hfits => ?_⟩
    · exact exec_of_resultOf_eq_raise (i := .packBits n bits) (Block.packBits_of_closed hliteral hclosed)
    · exact exec_of_resultOf_eq_raise (i := .packBits n bits)
        (Block.packBits_of_overflow hliteral hopen hover)
    · exact ⟨literalBits n bits, lowBits_length n.toNat bits, fun k hk => lowBits_getD bits hk,
        exec_of_resultOf_eq_respond (i := .packBits n bits)
          (Block.packBits_of_fits hliteral hopen hfits)⟩

/-- Settles O43: one lemma for each way the tests of `PACK_FLUSH` turn out, and the flushed packer field by
field, with held bits and without. -/
theorem packFlushClosesThePayload : Obligations.PackFlushClosesThePayload := by
  refine ⟨rfl, fun s => ⟨fun hclosed => ?_, fun hopen hheld hmax => ?_, fun hopen hfits => ?_⟩⟩
  · exact exec_of_resultOf_eq_raise (i := .packFlush) (Block.packFlush_of_closed hclosed)
  · exact exec_of_resultOf_eq_raise (i := .packFlush) (Block.packFlush_of_overflow hopen hheld hmax)
  · exact ⟨flushed s.block.packer, trailWord (flushed s.block.packer).trail, flushBytes s.block.packer,
      exec_of_resultOf_eq_respond (i := .packFlush) (Block.packFlush_of_fits hopen hfits),
      rfl, rfl, rfl, trailWord_toNat _,
      fun hheld => ⟨flushBytes_of_held hheld, flushed_byteCnt_of_held hheld (hfits hheld),
        flushed_trail_of_held hheld⟩,
      fun hempty => ⟨flushBytes_of_empty hempty, flushed_byteCnt_of_empty hempty,
        flushed_trail_of_empty hempty⟩⟩

/-- Settles O46: a flush emits a byte only for held bits, shifted left by 8 less the trailing-bit count. -/
theorem paddingBitsAreZero : Obligations.PaddingBitsAreZero := by
  intro s t v ht hout
  rw [exec_eq_next] at ht
  subst ht
  rcases Block.packFlush_cases s.block with hnone | ⟨hpacker, hbytes⟩
  · exact absurd (hnone.symm.trans hout) (by simp)
  · obtain ⟨hheld, rfl⟩ := eq_of_flushBytes_eq_singleton (hbytes.symm.trans hout)
    have htrail := flushed_trail_of_held hheld
    simp only [resultOf, hpacker, ← htrail]
    exact ⟨byte_shiftLeft_toNat_mod _ (Nat.sub_le _ _), shiftLeft_and_trailMask _ (by omega)⟩

/-- Settles O44: `PACK_CLR` has no test and its packer is the clear one. -/
theorem packClrClearsThePacker : Obligations.PackClrClearsThePacker :=
  ⟨rfl, fun _ => exec_of_resultOf_eq_respond (i := .packClr) rfl⟩

end

section
/-! The system family (spec/44_system.md): the register numbers, register `STATUS` as a number, the ways
`STAT_RD` ends, and the three commands. -/

namespace Sys2Proof.Machine

-- ======================================================= the status registers

/-- The number of a status register (R37 to R43).  `statReg_eq_some_iff` ties it to `statReg`. -/
def StatReg.number : StatReg → Nat
  | .id => 0
  | .status => 1
  | .err => 2
  | .nsym => 3
  | .total => 4
  | .byteCnt => 5
  | .trail => 6

/-- A `REG` field names the register of its number. -/
theorem statReg_eq_some_iff {reg : BitVec 4} {r : StatReg} : statReg reg = some r ↔ reg.toNat = r.number := by
  revert reg
  cases r <;> decide

/-- A `REG` field above 6 names no register (R44). -/
theorem statReg_eq_none {reg : BitVec 4} (h : 7 ≤ reg.toNat) : statReg reg = none := by
  revert reg
  decide

/-- The fields of `STATUS` do not overlap, so its number is the sum of theirs (R38). -/
theorem statusFields_toNat (nb : BitVec 3) (fault closed ready : Bool) :
    ((nb.setWidth 32 <<< 4) ||| (if fault then (4 : Word) else 0) ||| (if closed then 2 else 0) |||
      (if ready then 1 else 0)).toNat =
        nb.toNat * 16 + (if fault then 4 else 0) + (if closed then 2 else 0) + (if ready then 1 else 0) := by
  revert nb fault closed ready
  decide

/-- Register `STATUS` as a number: `NB` above `FAULT`, `CLOSED` and `READY`, `FAULT` set when `ERR` is not
0 (R38, R47). -/
theorem statusWord_toNat (b : Block) :
    (statusWord b).toNat = b.packer.nb.toNat * 16 + (if b.err ≠ 0 then 4 else 0) +
      (if b.packer.closed then 2 else 0) + (if b.ready then 1 else 0) := by
  rw [statusWord, statusFields_toNat]
  simp only [faultFlag, decide_eq_true_eq]

-- ======================================================= the ways STAT_RD ends

/-- A register that exists is read, and the block stays as it is (R212). -/
theorem Block.statRd_of_statReg {b : Block} {reg : BitVec 4} {r : StatReg} (h : statReg reg = some r) :
    b.statRd reg = respond b (statWord b r) [] := by
  rw [Block.statRd, h]

/-- A register that does not exist is the fault `IllegalCommand` (R44, R212). -/
theorem Block.statRd_of_not_regLegal {b : Block} {reg : BitVec 4} (h : ¬ regLegal reg) :
    b.statRd reg = raise b .illegalCommand 0 := by
  rw [Block.statRd, statReg_eq_none (Nat.not_le.1 h)]

end Sys2Proof.Machine

open Sys2Proof Sys2Proof.Machine

/-- Settles O53: `NOP` has no test and leaves the block as it is. -/
theorem nopChangesNothing : Obligations.NopChangesNothing :=
  ⟨rfl, fun _ => exec_of_resultOf_eq_respond (i := .nop) rfl⟩

/-- Settles O54: `CLR` leaves the reset block, whose fields O12 gives. -/
theorem clrClearsEverything : Obligations.ClrClearsEverything := by
  obtain ⟨hentries, hready, hnsym, htotal, herr, hacc, hnb, hbyteCnt, htrail, hclosed, -, hclr⟩ :=
    resetStateIsAllZero
  exact ⟨rfl, fun s => ⟨State.reset.block, hclr s, hentries, hready, hnsym, htotal, herr, hacc, hnb,
    hbyteCnt, htrail, hclosed⟩⟩

/-- Settles O55: a register above 6 is the fault; below, the data is the word of the register the number
names. -/
theorem statRdReadsTheRegister : Obligations.StatRdReadsTheRegister := by
  refine fun reg => ⟨?_, fun s => ⟨fun h7 => ?_, fun h6 => ?_⟩⟩
  · simp only [encode_toNat, Instr.opcode, Instr.operandBits]
    omega
  · exact exec_of_resultOf_eq_raise (i := .statRd reg) (Block.statRd_of_not_regLegal (Nat.not_le.2 h7))
  · obtain ⟨r, hr, -⟩ := statReg_of_le h6
    have hread : ∀ r' : StatReg, reg.toNat = r'.number → statWord s.block r = statWord s.block r' :=
      fun r' h => congrArg _ (Option.some.inj (hr.symm.trans (statReg_eq_some_iff.2 h)))
    refine ⟨statWord s.block r,
      exec_of_resultOf_eq_respond (i := .statRd reg) (Block.statRd_of_statReg hr), hread .id,
      fun h => ?_, fun h => ?_, fun h => ?_, fun h => ?_, hread .byteCnt, fun h => ?_⟩
    · rw [hread .status h]
      exact statusWord_toNat s.block
    · rw [hread .err h]
      exact BitVec.toNat_setWidth_of_le (by decide)
    · rw [hread .nsym h]
      exact BitVec.toNat_setWidth_of_le (by decide)
    · rw [hread .total h]
      exact BitVec.toNat_setWidth_of_le (by decide)
    · rw [hread .trail h]
      exact trailWord_toNat s.block.packer.trail

end

section
/-! The exceptions family (spec/60_exceptions.md): the result of a presented word, legal or not, how it
depends on `ERR`, and the statement that faults are precise (R242). -/

namespace Sys2Proof.Machine

-- ======================================================= the result of a presented word

/-- The block-level result of a command word (R91).  `step_of_command` ties it to `step`. -/
def resultOfWord (w : Word) (b : Block) : Result :=
  match decode w with
  | .ok i => resultOf i b
  | .error _ => raise b .illegalCommand 0

section Words
variable (w : Word) (b : Block) (e : BitVec 16)

theorem resultOfWord_of_decode_ok {i : Instr} (h : decode w = .ok i) :
    resultOfWord w b = resultOf i b := by
  rw [resultOfWord, h]

theorem resultOfWord_of_decode_error {d : DecodeError} (h : decode w = .error d) :
    resultOfWord w b = raise b .illegalCommand 0 := by
  rw [resultOfWord, h]

/-- The word of a well-formed command has the command's result. -/
theorem resultOfWord_encode {i : Instr} (h : i.wellFormed = true) :
    resultOfWord (encode i) b = resultOf i b :=
  resultOfWord_of_decode_ok _ b (decode_eq_ok_iff_encode.2 ⟨h, rfl⟩)

/-- A presented word is taken from the port and its result delivered (R91). -/
theorem step_of_command {s : State} {es : List HostEvent} (hs : s.pending = .command w :: es) :
    step s = State.deliver { s with pending := es } (resultOfWord w s.block) := by
  cases hw : decode w with
  | ok i => rw [step_of_decode_ok hs hw, exec_eq_deliver, resultOfWord_of_decode_ok w _ hw]
  | error d =>
    rw [step_of_decode_error hs hw, resultOfWord_of_decode_error w _ hw]
    rfl

/-- Presenting a word and stepping delivers its result. -/
theorem step_present_command (s : State) :
    step (s.present (.command w)) = s.deliver (resultOfWord w s.block) :=
  step_of_command w rfl

/-- A word that ends with a nonzero response code took a fault by `raise`. -/
theorem resultOfWord_eq_raise (h : (resultOfWord w b).rsp.rc ≠ 0) :
    ∃ f info, resultOfWord w b = raise b f info := by
  cases hw : decode w with
  | error d => exact ⟨_, _, resultOfWord_of_decode_error w b hw⟩
  | ok i =>
    rw [resultOfWord_of_decode_ok w b hw] at h ⊢
    exact (resultOf_cases i b).resolve_left h

/-- `ERR` after a presented word (R30): O16 of the word presented to a machine that holds the block. -/
theorem resultOfWord_err :
    (resultOfWord w b).block.err =
      if w = encode .clr then 0
      else if (resultOfWord w b).rsp.rc = 0 then b.err
      else b.err ||| (1#16 <<< (resultOfWord w b).rsp.rc.toNat) := by
  obtain ⟨-, hcommand, -⟩ := errRecordsEveryFault
  exact (hcommand (State.present { State.reset with block := b } (.command w)) _ w [] _ rfl
    (step_present_command w _) rfl).1

-- ======================================================= results and a recorded fault (R47)

/-- A result with `ERR` left out. -/
def Result.withoutErr (r : Result) : Result := { r with block := { r.block with err := 0 } }

/-- Equal results but for `ERR`: equal blocks but for `ERR`, equal responses and equal bytes. -/
theorem Result.withoutErr_eq_iff {r r' : Result} :
    r.withoutErr = r'.withoutErr ↔
      { r.block with err := 0 } = { r'.block with err := 0 } ∧ r.rsp = r'.rsp ∧ r.out = r'.out :=
  iff_of_eq (Result.mk.injEq ..)

/-- A register other than `STATUS` and `ERR` reads the same whatever `ERR` holds. -/
theorem statWord_withErr {r : StatReg} (hstatus : r ≠ .status) (herr : r ≠ .err) :
    statWord { b with err := e } r = statWord b r := by
  cases r with
  | status => exact absurd rfl hstatus
  | err => exact absurd rfl herr
  | id | nsym | total | byteCnt | trail => rfl

/-- `STAT_RD` of a register other than 1 and 2 has the same result whatever `ERR` holds. -/
theorem Block.statRd_withErr {reg : BitVec 4} (h1 : reg ≠ 1) (h2 : reg ≠ 2) :
    (Block.statRd { b with err := e } reg).withoutErr = (b.statRd reg).withoutErr := by
  cases hreg : statReg reg with
  | none =>
    rw [Block.statRd, Block.statRd, hreg]
    rfl
  | some r =>
    have hnumber : reg.toNat = r.number := statReg_eq_some_iff.1 hreg
    have hstatus : r ≠ .status := by
      rintro rfl
      exact h1 (BitVec.eq_of_toNat_eq hnumber)
    have herr : r ≠ .err := by
      rintro rfl
      exact h2 (BitVec.eq_of_toNat_eq hnumber)
    rw [Block.statRd_of_statReg hreg, Block.statRd_of_statReg hreg, statWord_withErr b e hstatus herr]
    rfl

/-- No test of a command and nothing it answers, emits or writes looks at `ERR`, but the reads of the
registers `STATUS` and `ERR` (R47). -/
theorem resultOf_withErr {i : Instr} (h1 : i ≠ .statRd 1) (h2 : i ≠ .statRd 2) :
    (resultOf i { b with err := e }).withoutErr = (resultOf i b).withoutErr := by
  cases i with
  | nop | clr | freqWr _ _ | freqRd _ | packClr => rfl
  | freqInc _ | build | codeRd _ _ | packBits _ _ | packFlush =>
    simp only [resultOf, Block.freqInc, Block.build, Block.codeRd, Block.packBits, Block.packFlush,
      apply_ite Result.withoutErr]
    rfl
  | encSym sym =>
    simp only [resultOf, Block.encSym]
    cases Table.get b.code sym with
    | none =>
      simp only [apply_ite Result.withoutErr]
      rfl
    | some bits =>
      simp only [apply_ite Result.withoutErr]
      rfl
  | statRd reg =>
    exact Block.statRd_withErr b e (fun h => h1 (congrArg _ h)) (fun h => h2 (congrArg _ h))

/-- A word's result does not depend on `ERR`, but for the two words that read it (R47). -/
theorem resultOfWord_withErr (h1 : w ≠ encode (.statRd 1)) (h2 : w ≠ encode (.statRd 2)) :
    (resultOfWord w { b with err := e }).withoutErr = (resultOfWord w b).withoutErr := by
  cases hw : decode w with
  | error d =>
    rw [resultOfWord_of_decode_error w _ hw, resultOfWord_of_decode_error w _ hw]
    rfl
  | ok i =>
    obtain ⟨-, rfl⟩ := decode_eq_ok_iff_encode.1 hw
    rw [resultOfWord_of_decode_ok _ _ hw, resultOfWord_of_decode_ok _ _ hw]
    exact resultOf_withErr b e (fun h => h1 (congrArg _ h)) (fun h => h2 (congrArg _ h))

/-- The word of `STAT_RD STATUS` reads the register and leaves the block. -/
theorem resultOfWord_statRd_status :
    resultOfWord (encode (.statRd 1)) b = respond b (statusWord b) [] :=
  resultOfWord_encode b (by decide)

/-- The word of `STAT_RD ERR` reads the register and leaves the block. -/
theorem resultOfWord_statRd_err :
    resultOfWord (encode (.statRd 2)) b = respond b (b.err.setWidth 32) [] :=
  resultOfWord_encode b (by decide)

/-- What no word makes depend on `ERR`: the bytes, the block but for `ERR`, and the response code. -/
theorem resultOfWord_withErr_frame :
    (resultOfWord w { b with err := e }).out = (resultOfWord w b).out ∧
    { (resultOfWord w { b with err := e }).block with err := 0 } =
      { (resultOfWord w b).block with err := 0 } ∧
    (resultOfWord w { b with err := e }).rsp.rc = (resultOfWord w b).rsp.rc := by
  by_cases h1 : w = encode (.statRd 1)
  · subst h1
    rw [resultOfWord_statRd_status, resultOfWord_statRd_status]
    exact ⟨rfl, rfl, rfl⟩
  by_cases h2 : w = encode (.statRd 2)
  · subst h2
    rw [resultOfWord_statRd_err, resultOfWord_statRd_err]
    exact ⟨rfl, rfl, rfl⟩
  · obtain ⟨hblock, hrsp, hout⟩ := Result.withoutErr_eq_iff.1 (resultOfWord_withErr w b e h1 h2)
    exact ⟨hout, hblock, congrArg Response.rc hrsp⟩

-- ======================================================= the command after a fault

/-- The `ERR` bit of any response code is a bit of the 16. -/
theorem errBit_ne_zero (k : BitVec 4) : 1#16 <<< k.toNat ≠ 0 := by
  revert k
  decide

/-- The `ERR` bit as register `ERR` shows it. -/
theorem errBit_setWidth (k : BitVec 4) : (1#16 <<< k.toNat).setWidth 32 = 1#32 <<< k.toNat := by
  revert k
  decide

/-- Setting `FAULT` among the fields of `STATUS` sets bit 2 and no other. -/
theorem statusFields_or_fault (nb : BitVec 3) (fault closed ready : Bool) :
    ((nb.setWidth 32 <<< 4) ||| (4 : Word) ||| (if closed then (2 : Word) else 0) |||
        (if ready then (1 : Word) else 0)) =
      ((nb.setWidth 32 <<< 4) ||| (if fault then 4 else 0) ||| (if closed then 2 else 0) |||
        (if ready then 1 else 0)) ||| 4#32 := by
  revert nb fault closed ready
  decide

/-- A nonzero `ERR` adds the flag `FAULT` to register `STATUS` and changes nothing else of it (R38). -/
theorem statusWord_withErr (he : e ≠ 0) : statusWord { b with err := e } = statusWord b ||| 4#32 := by
  simp only [statusWord, show faultFlag e = true from decide_eq_true he, if_true]
  exact statusFields_or_fault b.packer.nb (faultFlag b.err) b.packer.closed b.ready

/-- An `ERR` bit recorded before a word is still recorded after it, unless the word clears `ERR`, and
has no other influence on `ERR` (R30, R242). -/
theorem resultOfWord_err_or (bit : BitVec 16) :
    (resultOfWord w { b with err := b.err ||| bit }).block.err = (resultOfWord w b).block.err ∨
    (resultOfWord w { b with err := b.err ||| bit }).block.err = (resultOfWord w b).block.err ||| bit := by
  obtain ⟨-, -, hrc⟩ := resultOfWord_withErr_frame w b (b.err ||| bit)
  rw [resultOfWord_err, resultOfWord_err, hrc]
  by_cases hclr : w = encode .clr
  · exact .inl (by rw [if_pos hclr, if_pos hclr])
  · rw [if_neg hclr, if_neg hclr]
    right
    split
    · rfl
    · dsimp only
      ac_rfl

end Words

/-- A step that ends with a nonzero response code leaves the state before it with that code's `ERR` bit
set, the response and no byte (R242). -/
theorem step_eq_faulted {s t : State} {w : Word} {es : List HostEvent} {r : Response}
    (hs : s.pending = .command w :: es) (ht : step s = .next t) (hr : t.rsp = some r) (hrc : r.rc ≠ 0) :
    t = State.faulted { s with pending := es } r.rc.toNat r.data := by
  rw [step_of_command w hs, deliver_eq_next] at ht
  subst ht
  cases hr
  obtain ⟨f, info, h⟩ := resultOfWord_eq_raise w s.block hrc
  simp [h, State.faulted, raise, FaultCode.errBit_eq]

end Sys2Proof.Machine

open Sys2Proof Sys2Proof.Machine

/-- Settles O15: the fault is `step_eq_faulted`; the next word meets two blocks that differ in `ERR` only,
and of what it does only `ERR` and the two reads of it see the difference. -/
theorem faultsArePrecise : Obligations.FaultsArePrecise := by
  intro s t w es r hs ht hr hrc
  have hfaulted := step_eq_faulted hs ht hr hrc
  refine ⟨hfaulted, fun v u u' hu hu' => ?_⟩
  rw [step_present_command, deliver_eq_next] at hu hu'
  subst hfaulted hu hu'
  obtain ⟨hout, hblock, hcode⟩ :=
    resultOfWord_withErr_frame v s.block (s.block.err ||| 1#16 <<< r.rc.toNat)
  refine ⟨hout, rfl, hblock, resultOfWord_err_or v s.block _, fun h1 h2 => ?_, ?_⟩
  · obtain ⟨-, hrsp, -⟩ := Result.withoutErr_eq_iff.1 (resultOfWord_withErr v s.block _ h1 h2)
    exact congrArg some hrsp
  · rintro _ _ ⟨⟩ ⟨⟩
    refine ⟨hcode, ?_, ?_⟩
    · rintro rfl
      have herr : s.block.err ||| 1#16 <<< r.rc.toNat ≠ 0 := fun h =>
        errBit_ne_zero r.rc (BitVec.or_eq_zero_iff.1 h).2
      simp only [resultOfWord_statRd_status, respond_rsp]
      exact statusWord_withErr s.block _ herr
    · rintro rfl
      simp only [resultOfWord_statRd_err, respond_rsp]
      exact (BitVec.setWidth_or ..).trans (congrArg _ (errBit_setWidth r.rc))

end

section
/-! The tree of codes (spec/41_build.md sections 5 and 8): the size, index and weight of the root, the
length of a path, no code as the beginning of another, and the Kraft sum. -/

namespace Sys2Proof.Machine

-- ======================================================= the root's numbers

section Root
variable {freq : Table Count} {root : QNode}

/-- Some member of the queue always has the index before the next free one, so the last node left is
`2n-2` (R136). -/
theorem rootOf_index (hroot : rootOf freq = some root) (h : 1 ≤ distinct freq) :
    root.index = 2 * distinct freq - 2 := by
  have hcarried : ∃ m ∈ [root], m.index + 1 = 2 * distinct freq - 1 := by
    refine rootOf_carries (P := fun k q => ∃ m ∈ q, m.index + 1 = k)
      (fun hperm ⟨m, hm, hk⟩ => ⟨m, hperm.mem_iff.1 hm, hk⟩)
      (fun {k a b rest} _ => ⟨merge k a b, List.mem_cons_self, rfl⟩) hroot ?_
    have hlast : distinct freq - 1 < (leaves freq).length := by
      rw [leaves_length]
      omega
    refine ⟨(leaves freq)[distinct freq - 1], List.getElem_mem hlast, ?_⟩
    simp [leaves_eq_map_zipIdx_scan, Nat.sub_add_cancel h]
  simp only [List.mem_singleton, exists_eq_left] at hcarried
  omega

/-- The trees of the queue have as many nodes together as have got an index, so the last one has `2n-1`
(R136). -/
theorem rootOf_size (hroot : rootOf freq = some root) : root.tree.size = 2 * distinct freq - 1 := by
  have hcarried : (([root].map fun m => m.tree.size).sum) = 2 * distinct freq - 1 := by
    refine rootOf_carries (P := fun k q => (q.map fun m => m.tree.size).sum = k)
      (fun hperm h => (hperm.map _).sum_eq.symm.trans h) (fun h => ?_) hroot ?_
    · simp only [List.map_cons, List.sum_cons, merge, Tree.size] at h ⊢
      omega
    · simp [leaves_eq_map_zipIdx_scan, Function.comp_def, Tree.size, distinct]
  simpa using hcarried

/-- The weights of the queue add up to the sum of all counts throughout, so the root weighs it (R139,
R142). -/
theorem rootOf_weight (hroot : rootOf freq = some root) : root.weight = totalCount freq := by
  have hcarried : ([root].map QNode.weight).sum = totalCount freq := by
    refine rootOf_carries (P := fun _ q => (q.map QNode.weight).sum = totalCount freq)
      (fun hperm h => (hperm.map _).sum_eq.symm.trans h) (fun h => ?_) hroot ?_
    · simp only [List.map_cons, List.sum_cons, merge] at h ⊢
      omega
    · have hweights : (leaves freq).map QNode.weight =
          ((scan freq).zipIdx.map Prod.fst).map fun x => (Table.get freq x).toNat := by
        rw [leaves_eq_map_zipIdx_scan, List.map_map, List.map_map]
        rfl
      rw [hweights, List.zipIdx_map_fst, totalCount_eq_sum_scan]
  simpa using hcarried

end Root

-- ======================================================= paths

namespace Tree
variable {t : Tree} {x y : Sym} {p q : BitString}

/-- The path to a leaf of the left child begins with 0 (R137). -/
theorem path_node_of_mem_left {l r : Tree} (h : x ∈ l.syms) :
    (Tree.node l r).path x = (l.path x).map (false :: ·) := by
  obtain ⟨p, hp⟩ := Option.isSome_iff_exists.1 ((path_isSome_iff l x).2 h)
  simp [path, hp]

/-- The path to any other leaf begins with 1 (R137). -/
theorem path_node_of_not_mem_left {l r : Tree} (h : x ∉ l.syms) :
    (Tree.node l r).path x = (r.path x).map (true :: ·) := by
  rw [← path_isSome_iff, Option.not_isSome_iff_eq_none] at h
  simp [path, h]

/-- In a node a path goes left or right (R137). -/
theorem path_node_cases {l r : Tree} (h : (Tree.node l r).path x = some p) :
    (∃ p', l.path x = some p' ∧ p = false :: p') ∨ ∃ p', r.path x = some p' ∧ p = true :: p' := by
  by_cases hx : x ∈ l.syms
  · rw [path_node_of_mem_left hx, Option.map_eq_some_iff] at h
    obtain ⟨p', hp', hp⟩ := h
    exact .inl ⟨p', hp', hp.symm⟩
  · rw [path_node_of_not_mem_left hx, Option.map_eq_some_iff] at h
    obtain ⟨p', hp', hp⟩ := h
    exact .inr ⟨p', hp', hp.symm⟩

/-- A turn in front of a path makes it one bit longer. -/
theorem length_getD_map_cons {o : Option BitString} (turn : Bool) (h : o.isSome = true) :
    ((o.map (turn :: ·)).getD []).length = (o.getD []).length + 1 := by
  obtain ⟨p, rfl⟩ := Option.isSome_iff_exists.1 h
  rfl

/-- Every tree has a leaf. -/
theorem syms_length_pos (t : Tree) : 0 < t.syms.length := by
  induction t with
  | leaf s => exact Nat.one_pos
  | node l r ihl ihr =>
    rw [syms, List.length_append]
    omega

/-- A path turns away from at least one leaf at each of its bits. -/
theorem path_length_lt (h : t.path x = some p) : p.length < t.syms.length := by
  induction t generalizing p with
  | leaf s =>
    simp only [path, Option.ite_none_right_eq_some, Option.some.injEq] at h
    obtain ⟨-, rfl⟩ := h
    exact Nat.one_pos
  | node l r ihl ihr =>
    have hl := l.syms_length_pos
    have hr := r.syms_length_pos
    rw [syms, List.length_append]
    rcases path_node_cases h with ⟨p', hp', rfl⟩ | ⟨p', hp', rfl⟩
    · have := ihl hp'
      rw [List.length_cons]
      omega
    · have := ihr hp'
      rw [List.length_cons]
      omega

/-- A path that another one continues leads to the same leaf. -/
theorem eq_of_path_prefix (hx : t.path x = some p) (hy : t.path y = some q) (hpq : p <+: q) : x = y := by
  induction t generalizing p q with
  | leaf s =>
    simp only [path, Option.ite_none_right_eq_some] at hx hy
    exact hx.1.symm.trans hy.1
  | node l r ihl ihr =>
    rcases path_node_cases hx with ⟨p', hp', rfl⟩ | ⟨p', hp', rfl⟩ <;>
      rcases path_node_cases hy with ⟨q', hq', rfl⟩ | ⟨q', hq', rfl⟩ <;>
      simp only [List.cons_prefix_cons, reduceCtorEq, false_and, true_and] at hpq
    · exact ihl hp' hq' hpq
    · exact ihr hp' hq' hpq

/-- A code is no shorter than one bit and, in a tree of two or more leaves, shorter than their number
(R137, R138). -/
theorem code_length (h : t.code x = some p) :
    1 ≤ p.length ∧ (2 ≤ t.syms.length → p.length < t.syms.length) ∧ (t.syms.length = 1 → p.length = 1) := by
  cases t with
  | leaf s =>
    simp only [code, Option.ite_none_right_eq_some, Option.some.injEq] at h
    obtain ⟨-, rfl⟩ := h
    simp [syms]
  | node l r =>
    have hlt := path_length_lt h
    have hl := l.syms_length_pos
    have hr := r.syms_length_pos
    refine ⟨?_, fun _ => hlt, fun h1 => ?_⟩
    · rcases path_node_cases h with ⟨p', -, rfl⟩ | ⟨p', -, rfl⟩ <;> simp
    · rw [syms, List.length_append] at h1
      omega

/-- A code that another one continues is the code of the same symbol. -/
theorem eq_of_code_prefix (hx : t.code x = some p) (hy : t.code y = some q) (hpq : p <+: q) : x = y := by
  cases t with
  | leaf s =>
    simp only [code, Option.ite_none_right_eq_some] at hx hy
    exact hx.1.symm.trans hy.1
  | node l r => exact eq_of_path_prefix hx hy hpq

/-- Kraft's equality for the paths of a tree of at most `depth + 1` leaves, each symbol at one leaf:
either child of a node takes half of it. -/
theorem sum_path_length {depth : Nat} (hnodup : t.syms.Nodup) (h : t.syms.length ≤ depth + 1) :
    (t.syms.map fun x => 2 ^ (depth - ((t.path x).getD []).length)).sum = 2 ^ depth := by
  induction t generalizing depth with
  | leaf s => simp [syms, path]
  | node l r ihl ihr =>
    obtain ⟨hl, hr, hdisjoint⟩ := List.nodup_append.1 hnodup
    have hlpos := l.syms_length_pos
    have hrpos := r.syms_length_pos
    rw [syms, List.length_append] at h
    obtain ⟨depth, rfl⟩ : ∃ d, depth = d + 1 := ⟨depth - 1, by omega⟩
    have hleft : ∀ x ∈ l.syms, (((Tree.node l r).path x).getD []).length
        = ((l.path x).getD []).length + 1 := fun x hx => by
      rw [path_node_of_mem_left hx, length_getD_map_cons _ ((path_isSome_iff l x).2 hx)]
    have hright : ∀ x ∈ r.syms, (((Tree.node l r).path x).getD []).length
        = ((r.path x).getD []).length + 1 := fun x hx => by
      rw [path_node_of_not_mem_left fun hxl => hdisjoint x hxl x hx rfl,
        length_getD_map_cons _ ((path_isSome_iff r x).2 hx)]
    rw [syms, List.map_append, List.sum_append,
      List.map_congr_left fun x hx => by rw [hleft x hx, Nat.add_sub_add_right],
      List.map_congr_left (l := r.syms) fun x hx => by rw [hright x hx, Nat.add_sub_add_right],
      ihl hl (by omega), ihr hr (by omega), Nat.pow_succ, Nat.mul_two]

end Tree

-- ======================================================= the code table

section CodeTable
variable {freq : Table Count} {root : QNode} {x y : Sym} {p q : BitString}

/-- The tree has a leaf for every present symbol. -/
theorem rootOf_syms_length (hroot : rootOf freq = some root) : root.tree.syms.length = distinct freq :=
  (rootOf_syms_perm hroot).length_eq

/-- A code of the table is a code of the tree (R139). -/
theorem code_of_get_codeTable (h : Table.get (codeTable freq) x = some p) :
    ∃ root, rootOf freq = some root ∧ root.tree.code x = some p := by
  have hx : present freq x := (get_codeTable_isSome_iff freq x).1 (by simp [h])
  obtain ⟨root, hroot⟩ := exists_rootOf (List.length_pos_of_mem ((mem_scan freq).2 hx))
  exact ⟨root, hroot, (get_codeTable_of_present hroot hx).symm.trans h⟩

/-- A code of the table that another one continues is the code of the same symbol. -/
theorem eq_of_codeTable_prefix (hx : Table.get (codeTable freq) x = some p)
    (hy : Table.get (codeTable freq) y = some q) (hpq : p <+: q) : x = y := by
  obtain ⟨root, hroot, hp⟩ := code_of_get_codeTable hx
  obtain ⟨root', hroot', hq⟩ := code_of_get_codeTable hy
  obtain rfl : root = root' := Option.some.inj (hroot.symm.trans hroot')
  exact Tree.eq_of_code_prefix hp hq hpq

/-- The length of a code in a table of `n` symbols: 1 to `n-1`, and 1 for a single symbol. -/
theorem codeTable_length (h : Table.get (codeTable freq) x = some p) :
    1 ≤ p.length ∧ (2 ≤ distinct freq → p.length ≤ distinct freq - 1) ∧
      (distinct freq = 1 → p.length = 1) := by
  obtain ⟨root, hroot, hp⟩ := code_of_get_codeTable h
  have hlength := Tree.code_length hp
  rw [rootOf_syms_length hroot] at hlength
  obtain ⟨hpos, hmany, hone⟩ := hlength
  exact ⟨hpos, fun h2 => Nat.le_sub_one_of_lt (hmany h2), hone⟩

/-- The length of a present symbol's code is that of its path in a tree of two or more leaves. -/
theorem codeLen_eq (hroot : rootOf freq = some root) (h2 : 2 ≤ distinct freq) (hx : present freq x) :
    codeLen freq x = ((root.tree.path x).getD []).length := by
  rw [codeLen, get_codeTable_of_present hroot hx,
    Tree.code_eq_path (h2.trans_eq (rootOf_syms_length hroot).symm)]

end CodeTable

end Sys2Proof.Machine

open Sys2Proof Sys2Proof.Machine

/-- Settles O29: the merge loop carries the weights' sum, the number of nodes, the last index and the
symbols from the leaves to the root. -/
theorem rootHoldsAllPresentSymbols : Obligations.RootHoldsAllPresentSymbols := by
  intro freq h
  obtain ⟨root, hroot⟩ := exists_rootOf h
  have hweight := rootOf_weight hroot
  exact ⟨root, hroot, hweight, rootOf_index hroot h, rootOf_size hroot, rootOf_syms_perm hroot,
    fun h255 => hweight ▸ totalCount_lt freq h255⟩

/-- Settles O33: a path that continues another one leads to the same leaf. -/
theorem codesArePrefixFree : Obligations.CodesArePrefixFree :=
  fun _ _ _ _ _ hne hx hy hpq => hne (eq_of_codeTable_prefix hx hy hpq)

/-- Settles O34: a path is shorter than the number of leaves, and a bare leaf has the code 0. -/
theorem codeLengthsAreBounded : Obligations.CodeLengthsAreBounded :=
  fun _ _ _ h => codeTable_length h

/-- Settles O35: Kraft's equality of the tree, whose leaves are the scan in another order. -/
theorem codesMeetKraftEquality : Obligations.CodesMeetKraftEquality := by
  intro freq h2 h255
  obtain ⟨root, hroot⟩ := exists_rootOf (Nat.le_of_succ_le h2)
  have hperm := rootOf_syms_perm hroot
  rw [List.map_congr_left fun x hx => by rw [codeLen_eq hroot h2 ((mem_scan freq).1 hx)],
    ← (hperm.map _).sum_eq]
  exact Tree.sum_path_length (hperm.nodup_iff.2 (scan_nodup freq))
    ((rootOf_syms_length hroot).trans_le h255)

/-- Settles O37: which way the tests of `BUILD` turn out, its answer and what it writes are functions of
`FREQ`. -/
theorem buildDependsOnFrequenciesOnly : Obligations.BuildDependsOnFrequenciesOnly := by
  intro s s' t t' hfreq ht ht'
  rw [exec_eq_next] at ht ht'
  subst ht ht'
  simp only [resultOf, Option.some.injEq]
  constructor
  · simp only [Block.build, apply_ite Result.rsp, raise_rsp, respond_rsp, hfreq]
  · intro h1 h255
    rw [Block.build_of_some h1 h255, Block.build_of_some (hfreq ▸ h1) (hfreq ▸ h255)]
    simp only [respond_block, Block.writeCodes, hfreq, and_self]

end

section
/-! The invariant (spec/10_state.md sections 3 to 5): the tests a command has passed when it succeeds, the
invariant of the packer and of the block under its effect, and the events of a step. -/

namespace Sys2Proof.Machine

-- ======================================================= the tests passed

/-- What `BUILD` and the packing commands have tested when they succeed (R131, R161, R181, R182).
`passesTests_of_success` ties it to `resultOf`. -/
def PassesTests (b : Block) : Instr → Prop
  | .build => 1 ≤ distinct b.freq ∧ distinct b.freq ≤ 255
  | .encSym _ => b.packer.closed = false
  | .packBits _ _ => b.packer.closed = false
  | .packFlush => b.packer.closed = false ∧ (0 < b.packer.nb.toNat → b.packer.byteCnt.toNat < 2 ^ 32 - 1)
  | .nop | .clr | .freqWr _ _ | .freqInc _ | .freqRd _ | .codeRd _ _ | .packClr | .statRd _ => True

section Tests
variable {i : Instr} {b : Block}

/-- A command that is equal to a fault does not succeed. -/
theorem not_success_of_eq_raise {r : Result} {f : FaultCode} {info : Word} (h : r = raise b f info) :
    r.rsp.rc ≠ 0 := by
  simp [h]

/-- A command that feeds or flushes the packer and succeeds found it open (R35). -/
theorem open_of_success (hi : pushes i = true ∨ i = .packFlush) (h : (resultOf i b).rsp.rc = 0) :
    b.packer.closed = false := by
  refine Bool.eq_false_of_not_eq_true fun hclosed => ?_
  obtain ⟨f, info, hraise⟩ := resultOf_eq_raise_of_closed hclosed hi
  exact not_success_of_eq_raise hraise h

/-- A command that succeeds has passed its tests. -/
theorem passesTests_of_success (h : (resultOf i b).rsp.rc = 0) : PassesTests b i := by
  cases i with
  | nop | clr | freqWr _ _ | freqInc _ | freqRd _ | codeRd _ _ | packClr | statRd _ => trivial
  | encSym _ | packBits _ _ => exact open_of_success (.inl rfl) h
  | build =>
    have hnone : distinct b.freq ≠ 0 := fun h0 => not_success_of_eq_raise (Block.build_of_none h0) h
    have hall : distinct b.freq ≠ 256 := fun h256 => not_success_of_eq_raise (Block.build_of_all h256) h
    have hle := distinct_le b.freq
    exact ⟨by omega, by omega⟩
  | packFlush =>
    have hopen := open_of_success (.inr rfl) h
    refine ⟨hopen, fun hheld => ?_⟩
    have hmax : b.packer.byteCnt.toNat ≠ 2 ^ 32 - 1 := fun hmax =>
      not_success_of_eq_raise (Block.packFlush_of_overflow hopen hheld hmax) h
    have hlt := b.packer.byteCnt.isLt
    omega

end Tests

-- ======================================================= the packer

section Packer
variable {p : Packer}

theorem Packer.reset_inv : Packer.reset.Inv :=
  ⟨by decide, by decide, by decide, by decide, by decide⟩

/-- Pushing bits into an open packer keeps its invariant (R34, R36). -/
theorem Packer.Inv.pushBits (hp : p.Inv) (hopen : p.closed = false) (bs : BitString) :
    (pushBits p bs).1.Inv := by
  obtain ⟨htrail, hclosed⟩ := pushBits_frame p bs
  have hopen' : (Machine.pushBits p bs).1.closed = false := hclosed.trans hopen
  refine ⟨pushBits_acc_lt p bs hp.acc_lt, fun h => absurd h (by simp [hopen']),
    fun _ => htrail.trans (hp.open_trail hopen), htrail ▸ hp.trail_le, fun h => absurd h (by simp [hopen'])⟩

/-- A flush whose byte count fits leaves a packer that meets the invariant (R34, R36, R182). -/
theorem flushed_inv (hfits : 0 < p.nb.toNat → p.byteCnt.toNat < 2 ^ 32 - 1) : (flushed p).Inv := by
  have htrail : (flushed p).trail.toNat ≤ 8 ∧ ((flushed p).trail.toNat = 0 ↔ (flushed p).byteCnt.toNat = 0) := by
    by_cases hheld : 0 < p.nb.toNat
    · have hnb := p.nb.isLt
      rw [flushed_trail_of_held hheld, flushed_byteCnt_of_held hheld (hfits hheld)]
      omega
    · have hempty : p.nb = 0 := BitVec.eq_of_toNat_eq (Nat.eq_zero_of_not_pos hheld)
      rw [flushed_trail_of_empty hempty, flushed_byteCnt_of_empty hempty]
      split <;> omega
  obtain ⟨hle, hzero⟩ := htrail
  refine ⟨Nat.one_pos, fun _ => ⟨rfl, rfl⟩, nofun, hle, fun _ => ?_⟩
  rw [← BitVec.toNat_inj, ← BitVec.toNat_inj]
  exact hzero

end Packer

-- ======================================================= the block

namespace Block
variable {b : Block} {i : Instr}

theorem reset_inv : Block.reset.Inv where
  packer := Packer.reset_inv
  err_bits := by decide
  unbuilt _ := ⟨rfl, rfl, rfl⟩
  built h := absurd h (by decide)
  code_present h := absurd h (by decide)
  code_len s bits h := by simp [Block.reset] at h

/-- The fields other than the packer's do not speak of the packer. -/
theorem Inv.withPacker {p : Packer} (hb : b.Inv) (hp : p.Inv) : Block.Inv { b with packer := p } :=
  ⟨hp, hb.err_bits, hb.unbuilt, hb.built, hb.code_present, hb.code_len⟩

/-- Recording a fault that occurs keeps the invariant (R30, R242). -/
theorem Inv.raise {f : FaultCode} (hb : b.Inv) (hf : f.occurs) (info : Word) : (raise b f info).block.Inv :=
  ⟨hb.packer, raise_err_reserved info hf hb.err_bits, hb.unbuilt, hb.built, hb.code_present, hb.code_len⟩

/-- Whatever the counts are, an invalidated block claims nothing of them (R26, R110). -/
theorem Inv.invalidate (hb : b.Inv) (freq : Table Count) : (Block.invalidate { b with freq := freq }).Inv where
  packer := hb.packer
  err_bits := hb.err_bits
  unbuilt _ := ⟨rfl, rfl, rfl⟩
  built := nofun
  code_present := nofun
  code_len s bits h := by simp at h

/-- The write-back of 1 to 255 present symbols keeps the invariant: nothing is cut to its field, and no
code passes 254 bits (R23, R26, R139). -/
theorem Inv.writeCodes (hb : b.Inv) (h1 : 1 ≤ distinct b.freq) (h255 : distinct b.freq ≤ 255) :
    b.writeCodes.Inv where
  packer := hb.packer
  err_bits := hb.err_bits
  unbuilt := nofun
  built _ := ⟨h1, h255, Nat.mod_eq_of_lt (by omega), Nat.mod_eq_of_lt (totalCount_lt b.freq h255), rfl⟩
  code_present _ := get_codeTable_isSome_iff b.freq
  code_len s bits h := by
    obtain ⟨hpos, hmany, hone⟩ := codeTable_length h
    rw [Config.lenMax]
    refine ⟨hpos, ?_⟩
    rcases h1.eq_or_lt with heq | h2
    · exact (hone heq.symm).trans_le (by decide)
    · exact (hmany h2).trans (by omega)

/-- The effect of a command that has passed its tests keeps the invariant. -/
theorem Inv.effectOf (hb : b.Inv) (hi : PassesTests b i) : (effectOf i b).Inv := by
  cases i with
  | nop | freqRd _ | codeRd _ _ | statRd _ => exact hb
  | clr => exact reset_inv
  | freqWr sym cnt => exact hb.invalidate _
  | freqInc sym => exact hb.invalidate _
  | build => exact hb.writeCodes hi.1 hi.2
  | encSym sym => exact hb.withPacker (hb.packer.pushBits hi _)
  | packBits n bits => exact hb.withPacker (hb.packer.pushBits hi _)
  | packFlush => exact hb.withPacker (flushed_inv hi.2)
  | packClr => exact hb.withPacker Packer.reset_inv

/-- Every command keeps the invariant. -/
theorem Inv.resultOf (hb : b.Inv) (i : Instr) : (resultOf i b).block.Inv := by
  rcases resultOf_cases_effect i b with ⟨f, info, hf, h⟩ | ⟨data, out, h⟩
  · rw [h]
    exact hb.raise hf info
  · have hpasses : PassesTests b i := passesTests_of_success (by rw [h]; rfl)
    rw [h, respond_block]
    exact hb.effectOf hpasses

end Block

-- ======================================================= a step

section Step
variable {b : Block} {s t : State}

/-- A presented word succeeds, or it takes a fault that occurs (R91, R231). -/
theorem resultOfWord_cases (w : Word) (b : Block) :
    (resultOfWord w b).rsp.rc = 0 ∨ ∃ f info, f.occurs ∧ resultOfWord w b = raise b f info := by
  cases hw : decode w with
  | error e =>
    exact .inr ⟨.illegalCommand, 0, by decide, resultOfWord_of_decode_error w b hw⟩
  | ok i =>
    rw [resultOfWord_of_decode_ok w b hw]
    rcases resultOf_cases_effect i b with h | ⟨data, out, h⟩
    · exact .inr h
    · exact .inl (by rw [h]; rfl)

/-- The number of a fault that occurs is a legal response code (R231). -/
theorem FaultCode.occurs.legalRc {f : FaultCode} (hf : f.occurs) : legalRc f.rc := by
  revert hf
  cases f <;> decide

/-- Every presented word answers a legal response code, and no byte with a fault (R97, R242). -/
theorem resultOfWord_rsp (w : Word) (b : Block) :
    legalRc (resultOfWord w b).rsp.rc ∧ ((resultOfWord w b).rsp.rc ≠ 0 → (resultOfWord w b).out = []) := by
  rcases resultOfWord_cases w b with h | ⟨f, info, hf, h⟩
  · exact ⟨.inl h, fun hne => absurd h hne⟩
  · rw [h]
    exact ⟨hf.legalRc, fun _ => rfl⟩

/-- Every presented word keeps the block's invariant. -/
theorem Block.Inv.resultOfWord (hb : b.Inv) (w : Word) : (resultOfWord w b).block.Inv := by
  cases hw : decode w with
  | error e =>
    rw [resultOfWord_of_decode_error w b hw]
    exact hb.raise (by decide) 0
  | ok i =>
    rw [resultOfWord_of_decode_ok w b hw]
    exact hb.resultOf i

/-- With nothing presented the machine keeps its state (log entry 2). -/
theorem step_of_idle (hs : s.pending = []) : step s = .next s := by
  simp [step, State.takeEvent, hs]

/-- A block that meets the invariant and no response make a machine that meets it. -/
theorem State.inv_of_no_rsp (hb : s.block.Inv) (hr : s.rsp = none) : s.Inv :=
  ⟨hb, fun r h => by simp [hr] at h⟩

/-- A step keeps the invariant: the case split over the event it takes. -/
theorem State.Inv.step (hs : s.Inv) (ht : step s = .next t) : t.Inv := by
  cases hp : s.pending with
  | nil =>
    rw [step_of_idle hp] at ht
    cases ht
    exact hs
  | cons e es =>
    cases e with
    | reset =>
      rw [step_of_reset hp] at ht
      cases ht
      exact State.inv_of_no_rsp Block.reset_inv rfl
    | command w =>
      rw [step_of_command w hp, deliver_eq_next] at ht
      subst ht
      refine ⟨hs.block.resultOfWord w, ?_⟩
      rintro r ⟨⟩
      exact resultOfWord_rsp w s.block

end Step

end Sys2Proof.Machine

open Sys2Proof Sys2Proof.Machine

/-- Settles O14: a fault that occurs, or an effect whose tests were passed, keeps the block's invariant;
the reset block meets it. -/
theorem stepKeepsTheInvariant : Obligations.StepKeepsTheInvariant :=
  fun _ _ hs ht => hs.step ht

/-- Settles O13: the reset block meets the invariant, and there is no response yet. -/
theorem resetMeetsTheInvariant : Obligations.ResetMeetsTheInvariant :=
  State.inv_of_no_rsp Block.reset_inv rfl

/-- Settles O10: the word's result is delivered, its response code legal, and the next event stands on the
port. -/
theorem everyCommandEndsWithALegalResponse : Obligations.EveryCommandEndsWithALegalResponse :=
  fun s w _ hs => ⟨_, _, step_of_command w hs, rfl, (resultOfWord_rsp w s.block).1, rfl⟩

/-- Settles O36: the invariant says that the block holds what the write-back of its counts would write. -/
theorem secondBuildChangesNothing : Obligations.SecondBuildChangesNothing := by
  intro s hs hready
  obtain ⟨h1, h255, hnsym, htotal, hcode⟩ := hs.block.built hready
  have hwrite : s.block.writeCodes = s.block := by
    rw [Block.writeCodes, ← hcode, ← hnsym, ← htotal, BitVec.ofNat_toNat, BitVec.ofNat_toNat,
      BitVec.setWidth_eq, BitVec.setWidth_eq, ← hready]
  have hbuild := Block.build_of_some h1 h255
  rw [hwrite, ← hnsym, BitVec.ofNat_toNat] at hbuild
  exact exec_of_resultOf_eq_respond (i := .build) hbuild

end

section
/-! The rest of the encoding and of the step (spec/30_encoding.md, spec/10_state.md section 7): rows and
opcodes, words run as their commands, and which command writes which field. -/

namespace Sys2Proof

/-- A command's row stands in the opcode map at the place its opcode numbers (R90). -/
theorem opcodeTable_getElem?_opcode (i : Instr) : opcodeTable[i.opcode]? = some i.row := by
  cases i <;> rfl

/-- Commands of one opcode have one row. -/
theorem Instr.row_eq_of_opcode_eq {i j : Instr} (h : i.opcode = j.opcode) : i.row = j.row := by
  have hrow := opcodeTable_getElem?_opcode i
  rw [h, opcodeTable_getElem?_opcode j] at hrow
  exact (Option.some.inj hrow).symm

end Sys2Proof

namespace Sys2Proof.Machine

section Commands
variable {i : Instr} {s : State} {b : Block}

/-- Presenting the word of a well-formed command and stepping executes the command. -/
theorem step_present_encode (h : i.wellFormed = true) (s : State) :
    step (s.present (.command (encode i))) = exec i s := by
  rw [step_present_command, resultOfWord_encode s.block h, exec_eq_deliver]

-- ======================================================= the fields an effect leaves

/-- The effects that leave `FREQ` (R68). -/
theorem effectOf_freq (hclr : i ≠ .clr) (hwr : ∀ x c, i ≠ .freqWr x c) (hinc : ∀ x, i ≠ .freqInc x) :
    (effectOf i b).freq = b.freq := by
  cases i with
  | clr => exact absurd rfl hclr
  | freqWr x c => exact absurd rfl (hwr x c)
  | freqInc x => exact absurd rfl (hinc x)
  | nop | freqRd _ | build | codeRd _ _ | encSym _ | packBits _ _ | packFlush | packClr | statRd _ => rfl

/-- The effects that leave `CODE`, `NSYM`, `TOTAL` and `READY` (R68). -/
theorem effectOf_rom (hclr : i ≠ .clr) (hbuild : i ≠ .build) (hwr : ∀ x c, i ≠ .freqWr x c)
    (hinc : ∀ x, i ≠ .freqInc x) :
    (effectOf i b).code = b.code ∧ (effectOf i b).nsym = b.nsym ∧ (effectOf i b).total = b.total ∧
      (effectOf i b).ready = b.ready := by
  cases i with
  | clr => exact absurd rfl hclr
  | build => exact absurd rfl hbuild
  | freqWr x c => exact absurd rfl (hwr x c)
  | freqInc x => exact absurd rfl (hinc x)
  | nop | freqRd _ | codeRd _ _ | encSym _ | packBits _ _ | packFlush | packClr | statRd _ =>
    exact ⟨rfl, rfl, rfl, rfl⟩

/-- The effects that leave `TRAIL` and `CLOSED` (R34, R68). -/
theorem effectOf_trail_closed (hclr : i ≠ .clr) (hflush : i ≠ .packFlush) (hpackClr : i ≠ .packClr) :
    (effectOf i b).packer.trail = b.packer.trail ∧ (effectOf i b).packer.closed = b.packer.closed := by
  cases i with
  | clr => exact absurd rfl hclr
  | packFlush => exact absurd rfl hflush
  | packClr => exact absurd rfl hpackClr
  | encSym _ | packBits _ _ => exact pushBits_frame b.packer _
  | nop | freqWr _ _ | freqInc _ | freqRd _ | build | codeRd _ _ | statRd _ => exact ⟨rfl, rfl⟩

/-- The effects that leave the packer (R68). -/
theorem effectOf_packer (hclr : i ≠ .clr) (hflush : i ≠ .packFlush) (hpackClr : i ≠ .packClr)
    (hpushes : pushes i = false) : (effectOf i b).packer = b.packer := by
  cases i with
  | clr => exact absurd rfl hclr
  | packFlush => exact absurd rfl hflush
  | packClr => exact absurd rfl hpackClr
  | encSym _ | packBits _ _ => exact absurd hpushes (by simp [pushes])
  | nop | freqWr _ _ | freqInc _ | freqRd _ | build | codeRd _ _ | statRd _ => rfl

/-- The commands that feed the packer are `ENC_SYM` and `PACK_BITS` (R184). -/
theorem pushes_eq_true_iff : pushes i = true ↔ (∃ x, i = .encSym x) ∨ ∃ n bits, i = .packBits n bits := by
  cases i <;> simp [pushes]

/-- What holds of a field after a fault, which leaves it, and after the effect, holds after the command. -/
theorem resultOf_field {α : Type} (f : Block → α) (hraise : ∀ e, f { b with err := e } = f b)
    (heffect : f (effectOf i b) = f b) : f (resultOf i b).block = f b := by
  rcases resultOf_cases_effect i b with ⟨_, _, -, h⟩ | ⟨_, _, h⟩
  · rw [h]
    exact hraise _
  · rw [h]
    exact heffect

end Commands

end Sys2Proof.Machine

open Sys2Proof Sys2Proof.Machine

/-- Settles O1: the decoder is the inverse of the encoder on the well-formed commands. -/
theorem decodeOfEncodeIsTheCommand : Obligations.DecodeOfEncodeIsTheCommand :=
  fun _ hwf => decode_eq_ok_iff_encode.2 ⟨hwf, rfl⟩

/-- Settles O2: the other direction of the same. -/
theorem encodeOfDecodedIsTheWord : Obligations.EncodeOfDecodedIsTheWord :=
  fun _ _ h => decode_eq_ok_iff_encode.1 h

/-- Settles O4: a row a word selects has the word's opcode, and an opcode has one row. -/
theorem atMostOneRowMatchesAWord : Obligations.AtMostOneRowMatchesAWord := by
  intro w r hr r' hr' hw hw'
  obtain ⟨i, rfl⟩ := mem_opcodeTable_iff.1 hr
  obtain ⟨j, rfl⟩ := mem_opcodeTable_iff.1 hr'
  obtain ⟨hi, -⟩ := (i.row_selects_iff w).1 hw
  obtain ⟨hj, -⟩ := (j.row_selects_iff w).1 hw'
  exact Instr.row_eq_of_opcode_eq (hi.symm.trans hj)

/-- Settles O5: the decoder evaluated on the fifteen words. -/
theorem exampleWordsDecode : Obligations.ExampleWordsDecode := by
  unfold Obligations.ExampleWordsDecode
  decide

/-- Settles O6: the step on a word that decodes. -/
theorem stepRunsTheDecodedCommand : Obligations.StepRunsTheDecodedCommand :=
  fun _ _ _ _ hs hw => step_of_decode_ok hs hw

/-- Settles O8: the step on a reset event. -/
theorem resetEventResetsTheBlock : Obligations.ResetEventResetsTheBlock :=
  fun _ _ hs => step_of_reset hs

/-- Settles O9: the step with nothing to take. -/
theorem idleStepKeepsTheState : Obligations.IdleStepKeepsTheState :=
  fun _ hs => step_of_idle hs

/-- Settles O11, by induction over the commands: each presented word executes its command. -/
theorem wordsRunAsTheirCommands : Obligations.WordsRunAsTheirCommands := by
  intro is
  induction is with
  | nil => exact fun _ _ => rfl
  | cons i is ih =>
    intro s hwf
    obtain ⟨hi, his⟩ := List.forall_mem_cons.1 hwf
    simp only [List.map_cons, runWords, runInstrs, step_present_encode hi, fun t => ih t his]

/-- Settles O17: the results on the two blocks are equal but for `ERR`. -/
theorem recordedFaultsChangeNoResult : Obligations.RecordedFaultsChangeNoResult := by
  intro i s t e h1 h2 ht
  obtain ⟨hblock, hrsp, hout⟩ := Result.withoutErr_eq_iff.1 (resultOf_withErr s.block e h1 h2)
  rw [exec_eq_next] at ht
  subst ht
  exact ⟨_, (exec_eq_next ..).2 rfl, congrArg some hrsp, hout, rfl, hblock⟩

/-- Settles O18: field by field, a command that is none of those named leaves the field, because a fault
leaves it and the command's effect does; bytes and `ERR` by the lemmas on them. -/
theorem eachFieldIsWrittenOnlyByItsCommands : Obligations.EachFieldIsWrittenOnlyByItsCommands := by
  intro i s t ht
  rw [exec_eq_next] at ht
  subst ht
  refine ⟨rfl, ?_, ?_, ?_, ?_, ?_, ?_⟩
  · contrapose!
    rintro ⟨hclr, hwr, hinc⟩
    exact resultOf_field Block.freq (fun _ => rfl) (effectOf_freq hclr hwr hinc)
  · contrapose!
    rintro ⟨hclr, hbuild, hwr, hinc⟩
    obtain ⟨hcode, hnsym, htotal, hready⟩ := effectOf_rom (b := s.block) hclr hbuild hwr hinc
    exact ⟨resultOf_field Block.code (fun _ => rfl) hcode, resultOf_field Block.nsym (fun _ => rfl) hnsym,
      resultOf_field Block.total (fun _ => rfl) htotal, resultOf_field Block.ready (fun _ => rfl) hready⟩
  · contrapose!
    rintro ⟨hclr, hflush, hpackClr⟩
    obtain ⟨htrail, hclosed⟩ := effectOf_trail_closed (b := s.block) hclr hflush hpackClr
    exact ⟨resultOf_field (fun b => b.packer.trail) (fun _ => rfl) htrail,
      resultOf_field (fun b => b.packer.closed) (fun _ => rfl) hclosed⟩
  · rw [← pushes_eq_true_iff]
    contrapose!
    rintro ⟨hclr, hflush, hpackClr, hpushes⟩
    exact resultOf_field Block.packer (fun _ => rfl)
      (effectOf_packer hclr hflush hpackClr (Bool.eq_false_of_not_eq_true hpushes))
  · rw [← pushes_eq_true_iff]
    contrapose!
    rintro ⟨hflush, hpushes⟩
    exact resultOf_out_eq_nil s.block (Bool.eq_false_of_not_eq_true hpushes) hflush
  · contrapose!
    rintro ⟨hclr, hrc⟩
    exact (resultOf_err i s.block).trans (by rw [if_neg hclr, if_pos (hrc _ rfl)])

/-- Settles O56: the register evaluated at its nine counts. -/
theorem trailRegisterHasNineValues : Obligations.TrailRegisterHasNineValues := by
  unfold Obligations.TrailRegisterHasNineValues
  decide

end

section
/-! The reference functions `pack` and `unpack` (spec/43_bitpacker.md R184 to R186): a byte of `pack` bit by
bit, `pack` as one byte in front of the `pack` of the rest, the round trip, and what the packer emits from
clear to flush. -/

namespace Sys2Proof.Machine

-- ======================================================= pack

section Pack
variable {bs rest : BitString}

/-- A byte of `pack` spells the number of its eight bits, the first highest (R184). -/
theorem packByte_eq_natOfBits (bs : BitString) (j : Nat) :
    packByte bs j = BitVec.ofNat 8 (natOfBits ((List.range 8).map fun i => bs.getD (8 * j + i) false)) := by
  rw [packByte]
  congr 1
  simp only [List.range_succ, List.range_zero, List.nil_append, List.map_append, List.map_cons, List.map_nil,
    List.sum_append, List.sum_cons, List.sum_nil, natOfBits, List.foldl_append, List.foldl_cons,
    List.foldl_nil, shiftIn, Nat.shiftLeft_eq]
  omega

/-- Bit `7-k` of byte `j` of `pack` is bit `8j+k`, and 0 past the end (R184). -/
theorem packByte_getLsbD (bs : BitString) (j : Nat) {k : Nat} (hk : k < 8) :
    (packByte bs j).getLsbD (7 - k) = bs.getD (8 * j + k) false := by
  have hlength : ((List.range 8).map fun i => bs.getD (8 * j + i) false).length = 8 := by simp
  have hbit := natOfBits_testBit_of_lt (hk.trans_eq hlength.symm)
  rw [hlength] at hbit
  rw [packByte_eq_natOfBits, BitVec.getLsbD_ofNat, decide_eq_true (by omega), Bool.true_and]
  refine hbit.trans ?_
  simp [hk]

/-- A byte whose bits are those of a bit-string, 0 past its end, is the first byte of its `pack`. -/
theorem packByte_zero_eq {v : Byte} (h : ∀ k < 8, v.getLsbD (7 - k) = bs.getD k false) :
    packByte bs 0 = v := by
  refine BitVec.eq_of_getLsbD_eq fun i hi => ?_
  obtain ⟨k, hk, rfl⟩ : ∃ k, k < 8 ∧ i = 7 - k := ⟨7 - i, by omega, by omega⟩
  rw [packByte_getLsbD bs 0 hk, h k hk, Nat.mul_zero, Nat.zero_add]

theorem packBytes_length (bs : BitString) : (packBytes bs).length = (bs.length + 7) / 8 := by
  simp [packBytes]

@[simp] theorem packBytes_nil : packBytes [] = [] := rfl

/-- `pack` takes a byte from eight bits and goes on with the rest (R184). -/
theorem packBytes_of_ne_nil (h : bs ≠ []) : packBytes bs = packByte bs 0 :: packBytes (bs.drop 8) := by
  have hpos := List.length_pos_of_ne_nil h
  have hcount : (bs.length + 7) / 8 = ((bs.drop 8).length + 7) / 8 + 1 := by
    rw [List.length_drop]
    omega
  rw [packBytes, hcount, List.range_succ_eq_map, List.map_cons, List.map_map, packBytes]
  congr 1
  refine List.map_congr_left fun j _ => ?_
  have hplace : ∀ i, 8 * j.succ + i = 8 + (8 * j + i) := fun i => by omega
  simp only [Function.comp_apply, packByte, hplace, List.getD_eq_getElem?_getD, List.getElem?_drop]

/-- The bits of a byte in front of a bit-string put the byte in front of its `pack`. -/
theorem packBytes_byteBits_append (v : Byte) (rest : BitString) :
    packBytes (byteBits v ++ rest) = v :: packBytes rest := by
  have hlength : (byteBits v).length = 8 := lowBits_length 8 v
  have hne : byteBits v ++ rest ≠ [] := by
    rw [← List.length_pos_iff, List.length_append]
    omega
  rw [packBytes_of_ne_nil hne, List.drop_left' hlength, packByte_zero_eq fun k hk => ?_]
  rw [List.getD_append _ _ _ _ (hlength ▸ hk), byteBits_eq_lowBits, lowBits_getD v hk]

/-- The same for the bits of any number of bytes. -/
theorem packBytes_flatMap_byteBits_append (bytes : List Byte) (rest : BitString) :
    packBytes (bytes.flatMap byteBits ++ rest) = bytes ++ packBytes rest := by
  induction bytes with
  | nil => rfl
  | cons v bytes ih =>
    rw [List.flatMap_cons, List.append_assoc, packBytes_byteBits_append, ih, List.cons_append]

-- ======================================================= unpack

/-- Eight or more bits begin with those of the first byte of their `pack` (R185). -/
theorem byteBits_packByte_zero (h : 8 ≤ bs.length) : byteBits (packByte bs 0) = bs.take 8 := by
  refine List.ext_getElem (by simpa [byteBits] using h) fun k hk _ => ?_
  have hk8 : k < 8 := by simpa [byteBits] using hk
  have hbit := packByte_getLsbD bs 0 hk8
  have hin : k < bs.length := by omega
  rw [Nat.mul_zero, Nat.zero_add, List.getD_eq_getElem _ _ hin] at hbit
  simpa [byteBits] using hbit

/-- The last byte, its padding shifted out, is what is left of the bits (R185). -/
theorem lastBits_packByte_zero (h : bs.length ≤ 8) : lastBits (packByte bs 0) bs.length = bs := by
  refine List.ext_getElem (by simp [lastBits]) fun k hk hin => ?_
  have hk8 : k < 8 := by omega
  have hbit := packByte_getLsbD bs 0 hk8
  have hplace : 8 - bs.length + (bs.length - 1 - k) = 7 - k := by omega
  rw [Nat.mul_zero, Nat.zero_add, List.getD_eq_getElem _ _ hin] at hbit
  simpa [lastBits, hplace] using hbit

/-- Eight bits in front of more bits do not change the trailing-bit count. -/
theorem trailCount_drop (h : 8 < bs.length) : trailCount (bs.drop 8) = trailCount bs := by
  have hmod : (bs.length - 8) % 8 = bs.length % 8 := by omega
  rw [trailCount, trailCount, List.length_drop, hmod, if_pos (by omega : 0 < bs.length - 8),
    if_pos (by omega : 0 < bs.length)]

/-- Up to eight bits are all trailing ones. -/
theorem trailCount_of_le (h : bs.length ≤ 8) : trailCount bs = bs.length := by
  rw [trailCount]
  split
  · omega
  · split <;> omega

/-- The bytes and the trailing-bit count of `pack` tell the bit-string (R186), by induction over the whole
bytes. -/
theorem unpack_packBytes (bs : BitString) : unpack (packBytes bs) (trailCount bs) = bs := by
  by_cases hnil : bs = []
  · subst hnil
    rfl
  rw [packBytes_of_ne_nil hnil]
  by_cases hlast : bs.length ≤ 8
  · rw [List.drop_of_length_le hlast, packBytes_nil, unpack, trailCount_of_le hlast,
      lastBits_packByte_zero hlast]
  · have hmore : bs.drop 8 ≠ [] := by
      rw [ne_eq, List.drop_eq_nil_iff]
      exact hlast
    have ih := unpack_packBytes (bs.drop 8)
    rw [trailCount_drop (by omega), packBytes_of_ne_nil hmore] at ih
    rw [packBytes_of_ne_nil hmore, unpack, ih, byteBits_packByte_zero (by omega), List.take_append_drop]
termination_by bs.length
decreasing_by
  rw [List.length_drop]
  omega

end Pack

-- ======================================================= the packer from clear to flush

section Payload
variable (bs : BitString)

/-- The byte a flush emits is `pack` of the held bits (R182, R184). -/
theorem packBytes_heldBits (p : Packer) : packBytes (heldBits p) = flushBytes p := by
  have hlength : (heldBits p).length = p.nb.toNat := lowBits_length _ _
  have hnb := p.nb.isLt
  by_cases hheld : 0 < p.nb.toNat
  · have hne : heldBits p ≠ [] := by
      rw [← List.length_pos_iff, hlength]
      exact hheld
    rw [packBytes_of_ne_nil hne, List.drop_of_length_le (by omega), packBytes_nil, flushBytes_of_held hheld,
      packByte_zero_eq fun k hk => ?_]
    rw [BitVec.getLsbD_shiftLeft]
    by_cases hin : k < p.nb.toNat
    · have hplace : 7 - k - (8 - p.nb.toNat) = p.nb.toNat - 1 - k := by omega
      rw [heldBits_eq_lowBits, lowBits_getD p.acc hin, hplace, decide_eq_true (by omega : 7 - k < 8),
        decide_eq_false (by omega)]
      rfl
    · rw [List.getD_eq_default _ _ (by omega), decide_eq_true (by omega : 7 - k < 8 - p.nb.toNat)]
      simp
  · have hnone : p.nb = 0 := BitVec.eq_of_toNat_eq (Nat.eq_zero_of_not_pos hheld)
    have hnil : heldBits p = [] := List.length_eq_zero_iff.1 (hlength.trans (Nat.eq_zero_of_not_pos hheld))
    rw [hnil, flushBytes_of_empty hnone, packBytes_nil]

/-- What leaves a clear packer up to the flush is `pack` of the bits pushed (R184). -/
theorem pushBits_reset_flushBytes :
    (pushBits Packer.reset bs).2 ++ flushBytes (pushBits Packer.reset bs).1 = packBytes bs := by
  have hbits : bs = (pushBits Packer.reset bs).2.flatMap byteBits ++ heldBits (pushBits Packer.reset bs).1 :=
    heldBits_append Packer.reset bs
  conv_rhs => rw [hbits]
  rw [packBytes_flatMap_byteBits_append, packBytes_heldBits]

/-- From a clear packer `k` bits make `k` div 8 bytes. -/
theorem byteCntAfter_reset (k : Nat) : byteCntAfter Packer.reset k = k / 8 := by
  simp [byteCntAfter, Packer.reset]

/-- From a clear packer, what does not fill a byte is held. -/
theorem pushBits_reset_nb : (pushBits Packer.reset bs).1.nb.toNat = bs.length % 8 := by
  simp [pushBits_nb, Packer.reset]

variable {bs}

/-- From a clear packer, a byte count that fits is the number of whole bytes. -/
theorem pushBits_reset_byteCnt (h : bs.length / 8 ≤ 2 ^ 32 - 1) :
    (pushBits Packer.reset bs).1.byteCnt.toNat = bs.length / 8 := by
  rw [← byteCntAfter_reset] at h ⊢
  exact pushBits_byteCnt_toNat Packer.reset bs h

/-- From a clear packer, a payload whose last byte fits leaves its number of bytes and its trailing-bit
count (R182, R184). -/
theorem flushed_pushBits_reset (h : (bs.length + 7) / 8 ≤ 2 ^ 32 - 1) :
    (flushed (pushBits Packer.reset bs).1).byteCnt.toNat = (packBytes bs).length ∧
      (flushed (pushBits Packer.reset bs).1).trail.toNat = trailCount bs := by
  have hnb := pushBits_reset_nb bs
  have hcnt := pushBits_reset_byteCnt (bs := bs) (by omega)
  rw [packBytes_length, trailCount]
  by_cases hheld : 0 < (pushBits Packer.reset bs).1.nb.toNat
  · rw [flushed_byteCnt_of_held hheld (by omega), flushed_trail_of_held hheld, if_pos (by omega)]
    omega
  · have hnone : (pushBits Packer.reset bs).1.nb = 0 :=
      BitVec.eq_of_toNat_eq (Nat.eq_zero_of_not_pos hheld)
    rw [flushed_byteCnt_of_empty hnone, flushed_trail_of_empty hnone,
      if_neg (by omega : ¬ 0 < bs.length % 8)]
    constructor
    · omega
    · split <;> split <;> omega

end Payload

end Sys2Proof.Machine

open Sys2Proof Sys2Proof.Machine

/-- Settles O49: by induction over the whole bytes, each giving its eight bits back. -/
theorem unpackOfPackIsTheBits : Obligations.UnpackOfPackIsTheBits :=
  unpack_packBytes

end

section
/-! Runs of commands (spec/10_state.md section 7): a run in which every command succeeds, at the level of
the block; what commands that feed the packer do in a row, and the payload from clear to flush
(spec/43_bitpacker.md section 5). -/

namespace Sys2Proof.Machine

-- ======================================================= runs that succeed

/-- The commands `is`, one after another, all succeed on the block `b`, leave `b'` and emit `out` (R12,
R74).  `Succeeds.exists_run` and `succeeds_of_run` tie it to `runInstrs`. -/
inductive Succeeds : List Instr → Block → Block → List Byte → Prop where
  | nil (b : Block) : Succeeds [] b b []
  | cons {i : Instr} {is : List Instr} {b b₁ b' : Block} {data : Word} {out out' : List Byte}
      (head : resultOf i b = respond b₁ data out) (tail : Succeeds is b₁ b' out') :
      Succeeds (i :: is) b b' (out ++ out')

section Succeeds
variable {i : Instr} {is js : List Instr} {b b₁ b' : Block} {data : Word} {out out' : List Byte}

/-- A command whose response code is 0 ended by `respond`. -/
theorem eq_respond_of_success (h : (resultOf i b).rsp.rc = 0) :
    ∃ b₁ data out, resultOf i b = respond b₁ data out := by
  rcases resultOf_cases_effect i b with ⟨f, info, -, hraise⟩ | ⟨data, out, hrespond⟩
  · exact absurd h (not_success_of_eq_raise hraise)
  · exact ⟨_, data, out, hrespond⟩

/-- No result is both a fault and a success. -/
theorem not_raise_of_eq_respond {r : Result} {f : FaultCode} {info : Word} (h : r = respond b₁ data out) :
    r ≠ raise b f info :=
  fun hraise => not_success_of_eq_raise hraise (by rw [h]; rfl)

/-- One command is a run. -/
theorem Succeeds.single (h : resultOf i b = respond b₁ data out) : Succeeds [i] b b₁ out := by
  simpa using Succeeds.cons h (.nil b₁)

/-- Two runs make one. -/
theorem Succeeds.append (h : Succeeds is b b₁ out) (h' : Succeeds js b₁ b' out') :
    Succeeds (is ++ js) b b' (out ++ out') := by
  induction h with
  | nil b => exact h'
  | cons head tail ih =>
    rw [List.append_assoc]
    exact .cons head (ih h')

/-- A run is cut anywhere. -/
theorem Succeeds.of_append (h : Succeeds (is ++ js) b b' out) :
    ∃ b₁ out₁ out₂, Succeeds is b b₁ out₁ ∧ Succeeds js b₁ b' out₂ ∧ out = out₁ ++ out₂ := by
  induction is generalizing b out with
  | nil => exact ⟨b, [], out, .nil b, h, rfl⟩
  | cons i is ih =>
    cases h with
    | cons head tail =>
      obtain ⟨b₁, out₁, out₂, h₁, h₂, rfl⟩ := ih tail
      exact ⟨b₁, _, out₂, .cons head h₁, h₂, (List.append_assoc ..).symm⟩

/-- A run of one command is its success. -/
theorem Succeeds.of_single (h : Succeeds [i] b b' out) : ∃ data, resultOf i b = respond b' data out := by
  cases h with
  | cons head tail =>
    cases tail
    rw [List.append_nil]
    exact ⟨_, head⟩

/-- A run keeps the invariant. -/
theorem Succeeds.inv (h : Succeeds is b b' out) (hb : b.Inv) : b'.Inv := by
  induction h with
  | nil b => exact hb
  | @cons i _ b _ _ _ _ _ head _ ih =>
    have hnext := hb.resultOf i
    rw [head] at hnext
    exact ih hnext

/-- A run ends with what its first command adds to the run of the others. -/
theorem runInstrs_cons_eq_some {s : State} {r : Transcript} (h : runInstrs (i :: is) s = some r) :
    ∃ t r', exec i s = .next t ∧ runInstrs is t = some r' ∧ r = r'.after t := by
  have hexec := (exec_eq_next i s _).2 rfl
  rw [runInstrs, hexec, Option.map_eq_some_iff] at h
  obtain ⟨r', hrun, hr⟩ := h
  exact ⟨_, r', hexec, hrun, hr.symm⟩

/-- The host sees a run that succeeds so. -/
theorem Succeeds.exists_run (h : Succeeds is b b' out) {s : State} (hs : s.block = b) :
    ∃ r, runInstrs is s = some r ∧ r.succeeded ∧ r.state.block = b' ∧ r.bytes = out := by
  induction h generalizing s with
  | nil b => exact ⟨⟨s, [], []⟩, rfl, by simp [Transcript.succeeded], hs, rfl⟩
  | @cons i is b b₁ b' data out out' head _ ih =>
    have hexec : exec i s = .next (s.succeeded b₁ data out) := exec_of_resultOf_eq_respond (hs ▸ head)
    obtain ⟨r, hrun, hsucc, hblock, hbytes⟩ := ih (s := s.succeeded b₁ data out) rfl
    refine ⟨r.after (s.succeeded b₁ data out), ?_, ?_, hblock, ?_⟩
    · simp [runInstrs, hexec, hrun]
    · exact List.forall_mem_cons.2 ⟨rfl, hsucc⟩
    · exact congrArg (out ++ ·) hbytes

/-- A run in which the host sees no fault succeeds. -/
theorem succeeds_of_run {s : State} {r : Transcript} (h : runInstrs is s = some r) (hr : r.succeeded) :
    Succeeds is s.block r.state.block r.bytes := by
  induction is generalizing s r with
  | nil =>
    cases h
    exact .nil _
  | cons i is ih =>
    obtain ⟨t, r', hexec, hrun, rfl⟩ := runInstrs_cons_eq_some h
    rw [exec_eq_next] at hexec
    subst hexec
    obtain ⟨hrc, hr'⟩ := List.forall_mem_cons.1 hr
    obtain ⟨b₁, data, out, head⟩ := eq_respond_of_success hrc
    have tail := ih hrun hr'
    simp only [head, respond_block] at tail
    simpa only [Transcript.after, head, respond_out] using Succeeds.cons head tail

end Succeeds

-- ======================================================= feeding the packer

/-- A command that feeds the packer and has nothing but the byte count and the flush to fear: a legal
literal, or a symbol with a code in a ready ROM (R161, R181). -/
def Feeds (b : Block) (i : Instr) : Prop :=
  (∃ n bits, i = .packBits n bits ∧ i.wellFormed = true) ∨
    ∃ x, i = .encSym x ∧ b.ready = true ∧ (Table.get b.code x).isSome = true

/-- The block with these bits pushed into its packer (R180). -/
def Block.pushed (b : Block) (bs : BitString) : Block := { b with packer := (pushBits b.packer bs).1 }

section Feed
variable {i : Instr} {is : List Instr} {b b₁ b' : Block} {p : Packer} {bs : BitString} {data : Word}
  {out : List Byte}

/-- The byte count after two pushes is the one after both at once. -/
theorem byteCntAfter_pushBits (h : byteCntAfter p bs.length ≤ 2 ^ 32 - 1) (k : Nat) :
    byteCntAfter (pushBits p bs).1 k = byteCntAfter p (bs.length + k) := by
  rw [byteCntAfter, pushBits_byteCnt_toNat p bs h, pushBits_nb, byteCntAfter, byteCntAfter]
  omega

/-- `ENC_SYM` that succeeds found the ROM ready and a code (R161). -/
theorem ready_of_encSym_success {x : Sym} (h : resultOf (.encSym x) b = respond b₁ data out) :
    b.ready = true ∧ (Table.get b.code x).isSome = true := by
  have hready : b.ready = true := Bool.eq_true_of_not_eq_false fun hready =>
    not_raise_of_eq_respond h (Block.encSym_of_not_ready hready)
  refine ⟨hready, ?_⟩
  rw [Option.isSome_iff_ne_none]
  exact fun hnone => not_raise_of_eq_respond h (Block.encSym_of_no_code hready hnone)

/-- A command that feeds the packer succeeds when the packer is open and the byte count fits, and pushes its
bits (R161, R181). -/
theorem resultOf_of_feeds (hi : Feeds b i) (hopen : b.packer.closed = false)
    (hfits : byteCntAfter b.packer (pushedBits b.code i).length ≤ 2 ^ 32 - 1) :
    ∃ data, resultOf i b =
      respond (b.pushed (pushedBits b.code i)) data (pushBits b.packer (pushedBits b.code i)).2 := by
  rcases hi with ⟨n, bits, rfl, hwf⟩ | ⟨x, rfl, hready, hcode⟩
  · have hlength : (literalBits n bits).length = n.toNat := lowBits_length _ _
    exact ⟨_, Block.packBits_of_fits (of_decide_eq_true hwf) hopen (hlength ▸ hfits)⟩
  · obtain ⟨bits, hbits⟩ := Option.isSome_iff_exists.1 hcode
    simp only [pushedBits, hbits, Option.getD_some] at hfits ⊢
    exact ⟨_, Block.encSym_of_fits hready hbits hopen hfits⟩

/-- A command that feeds the packer and succeeds had nothing to fear. -/
theorem feeds_of_success (hi : pushes i = true) (h : resultOf i b = respond b₁ data out) : Feeds b i := by
  rcases pushes_eq_true_iff.1 hi with ⟨x, rfl⟩ | ⟨n, bits, rfl⟩
  · exact .inr ⟨x, rfl, ready_of_encSym_success h⟩
  · refine .inl ⟨n, bits, rfl, decide_eq_true (not_not.1 fun hillegal => ?_)⟩
    exact not_raise_of_eq_respond h (Block.packBits_of_not_literalLegal hillegal)

/-- A command that feeds the packer and succeeds found room for its bytes (R239). -/
theorem fits_of_success (hi : pushes i = true) (h : resultOf i b = respond b₁ data out) :
    byteCntAfter b.packer (pushedBits b.code i).length ≤ 2 ^ 32 - 1 := by
  have hopen : b.packer.closed = false := open_of_success (.inl hi) (by rw [h]; rfl)
  refine Nat.not_lt.1 fun hover => ?_
  rcases feeds_of_success hi h with ⟨n, bits, rfl, hwf⟩ | ⟨x, rfl, hready, hcode⟩
  · have hlength : (literalBits n bits).length = n.toNat := lowBits_length _ _
    exact not_raise_of_eq_respond h
      (Block.packBits_of_overflow (of_decide_eq_true hwf) hopen (hlength ▸ hover))
  · obtain ⟨bits, hbits⟩ := Option.isSome_iff_exists.1 hcode
    simp only [pushedBits, hbits, Option.getD_some] at hover
    exact not_raise_of_eq_respond h (Block.encSym_of_overflow hready hbits hopen hover)

/-- A command that feeds the packer and succeeds pushes its bits and does nothing else. -/
theorem eq_pushed_of_success (hi : pushes i = true) (h : resultOf i b = respond b₁ data out) :
    b₁ = b.pushed (pushedBits b.code i) ∧ out = (pushBits b.packer (pushedBits b.code i)).2 := by
  obtain ⟨data', h'⟩ := resultOf_of_feeds (feeds_of_success hi h)
    (open_of_success (.inl hi) (by rw [h]; rfl)) (fits_of_success hi h)
  rw [h] at h'
  exact ⟨congrArg Result.block h', congrArg Result.out h'⟩

/-- Two pushes are one. -/
theorem Block.pushed_append (b : Block) (bs cs : BitString) :
    (b.pushed bs).pushed cs = b.pushed (bs ++ cs) := by
  rw [Block.pushed, Block.pushed, Block.pushed, pushBits_append]

/-- Commands that feed the packer succeed in a row when it is open and the byte count fits, and push their
bits (R162, R184). -/
theorem succeeds_of_feeds (hi : ∀ i ∈ is, Feeds b i) (hopen : b.packer.closed = false)
    (hfits : byteCntAfter b.packer (pushedStream b.code is).length ≤ 2 ^ 32 - 1) :
    Succeeds is b (b.pushed (pushedStream b.code is)) (pushBits b.packer (pushedStream b.code is)).2 := by
  induction is generalizing b with
  | nil => exact .nil b
  | cons i is ih =>
    obtain ⟨hfeeds, his⟩ := List.forall_mem_cons.1 hi
    rw [pushedStream, List.flatMap_cons] at hfits ⊢
    rw [List.length_append] at hfits
    have hhead : byteCntAfter b.packer (pushedBits b.code i).length ≤ 2 ^ 32 - 1 := by
      refine le_trans ?_ hfits
      rw [byteCntAfter, byteCntAfter]
      omega
    obtain ⟨data, head⟩ := resultOf_of_feeds hfeeds hopen hhead
    obtain ⟨-, hclosed⟩ := pushBits_frame b.packer (pushedBits b.code i)
    have tail := ih (b := b.pushed (pushedBits b.code i)) his (hclosed.trans hopen)
      ((byteCntAfter_pushBits hhead _).trans_le hfits)
    rw [Block.pushed_append] at tail
    rw [pushBits_append]
    exact .cons head tail

/-- Commands that feed the packer and all succeed had nothing to fear, found room for their bytes, and
pushed their bits. -/
theorem Succeeds.pushed (h : Succeeds is b b' out) (hi : ∀ i ∈ is, pushes i = true) :
    (∀ i ∈ is, Feeds b i) ∧ byteCntAfter b.packer (pushedStream b.code is).length ≤ 2 ^ 32 - 1 ∧
      b' = b.pushed (pushedStream b.code is) ∧ out = (pushBits b.packer (pushedStream b.code is)).2 := by
  induction h with
  | nil b =>
    refine ⟨nofun, ?_, rfl, rfl⟩
    have hcnt := b.packer.byteCnt.isLt
    have hnb := b.packer.nb.isLt
    simp only [pushedStream, List.flatMap_nil, List.length_nil, byteCntAfter]
    omega
  | @cons i is b b₁ b' data out out' head tail ih =>
    obtain ⟨hpush, his⟩ := List.forall_mem_cons.1 hi
    have hfits := fits_of_success hpush head
    have hfeeds := feeds_of_success hpush head
    obtain ⟨rfl, rfl⟩ := eq_pushed_of_success hpush head
    obtain ⟨hfeedsTail, hfitsTail, rfl, rfl⟩ := ih his
    have hcount := byteCntAfter_pushBits hfits (pushedStream b.code is).length
    rw [pushedStream, List.flatMap_cons, List.length_append]
    refine ⟨List.forall_mem_cons.2 ⟨hfeeds, hfeedsTail⟩, hcount.symm.trans_le hfitsTail,
      Block.pushed_append .., ?_⟩
    rw [pushBits_append]
    rfl

end Feed

-- ======================================================= a payload

/-- The block after a payload: its bits pushed into a clear packer, and the flush (R182, R184). -/
def Block.afterPayload (b : Block) (bs : BitString) : Block :=
  { b with packer := flushed (pushBits Packer.reset bs).1 }

section Payload
variable {is : List Instr} {b b₁ b' : Block} {bs : BitString} {data : Word} {out : List Byte}

theorem Block.pushed_packer_of_clear (hclear : b.packer = Packer.reset) (bs : BitString) :
    (b.pushed bs).packer = (pushBits Packer.reset bs).1 :=
  congrArg (fun p => (pushBits p bs).1) hclear

/-- The flush that ends a payload succeeds when the payload's last byte fits (R182). -/
theorem packFlush_pushed (hclear : b.packer = Packer.reset) (hfits : (bs.length + 7) / 8 ≤ 2 ^ 32 - 1) :
    ∃ data, resultOf .packFlush (b.pushed bs) =
      respond (b.afterPayload bs) data (flushBytes (pushBits Packer.reset bs).1) := by
  have hpacker := Block.pushed_packer_of_clear hclear bs
  have hnb := pushBits_reset_nb bs
  have hcnt := pushBits_reset_byteCnt (bs := bs) (by omega)
  obtain ⟨-, hopen⟩ := pushBits_frame Packer.reset bs
  rw [← hpacker] at hnb hcnt hopen
  have hflush := Block.packFlush_of_fits hopen (by omega)
  rw [hpacker] at hflush
  exact ⟨_, hflush⟩

/-- The flush that ends a payload and succeeds found room for the last byte (R239). -/
theorem fits_of_packFlush_pushed (hclear : b.packer = Packer.reset) (hroom : bs.length / 8 ≤ 2 ^ 32 - 1)
    (h : resultOf .packFlush (b.pushed bs) = respond b₁ data out) :
    (bs.length + 7) / 8 ≤ 2 ^ 32 - 1 := by
  have htests : PassesTests (b.pushed bs) .packFlush := passesTests_of_success (by rw [h]; rfl)
  obtain ⟨-, hlast⟩ := htests
  rw [Block.pushed_packer_of_clear hclear, pushBits_reset_nb, pushBits_reset_byteCnt hroom] at hlast
  omega

/-- From a clear packer, commands that feed it and then the flush succeed when the payload fits, and emit
`pack` of the bits (R184). -/
theorem succeeds_payload (hi : ∀ i ∈ is, Feeds b i) (hclear : b.packer = Packer.reset)
    (hfits : (packBytes (pushedStream b.code is)).length ≤ 2 ^ 32 - 1) :
    Succeeds (is ++ [.packFlush]) b (b.afterPayload (pushedStream b.code is))
      (packBytes (pushedStream b.code is)) := by
  rw [packBytes_length] at hfits
  have hfeed := succeeds_of_feeds hi (by rw [hclear]; rfl) (by rw [hclear, byteCntAfter_reset]; omega)
  obtain ⟨data, hflush⟩ := packFlush_pushed hclear hfits
  rw [← pushBits_reset_flushBytes, ← hclear]
  rw [← hclear] at hflush
  exact hfeed.append (.single hflush)

/-- From a clear packer, commands that feed it and then the flush, all succeeding, had a payload that fits
and emitted `pack` of the bits (R184). -/
theorem Succeeds.payload (h : Succeeds (is ++ [.packFlush]) b b' out) (hi : ∀ i ∈ is, pushes i = true)
    (hclear : b.packer = Packer.reset) :
    (∀ i ∈ is, Feeds b i) ∧ (packBytes (pushedStream b.code is)).length ≤ 2 ^ 32 - 1 ∧
      b' = b.afterPayload (pushedStream b.code is) ∧ out = packBytes (pushedStream b.code is) := by
  obtain ⟨b₁, out₁, out₂, hfeed, hflush, rfl⟩ := h.of_append
  obtain ⟨hfeeds, hroom, rfl, rfl⟩ := hfeed.pushed hi
  obtain ⟨data, hresult⟩ := hflush.of_single
  rw [hclear, byteCntAfter_reset] at hroom
  have hfits := fits_of_packFlush_pushed hclear hroom hresult
  obtain ⟨data', hresult'⟩ := packFlush_pushed hclear hfits
  rw [hresult] at hresult'
  have hout : out₂ = flushBytes (pushBits Packer.reset _).1 := congrArg Result.out hresult'
  refine ⟨hfeeds, (packBytes_length _).trans_le hfits, congrArg Result.block hresult', ?_⟩
  rw [hout, hclear, pushBits_reset_flushBytes]

end Payload

end Sys2Proof.Machine

open Sys2Proof Sys2Proof.Machine

/-- Settles O47: the run emits `pack` of its bits, and a payload that fits leaves its number of bytes and
its trailing-bit count. -/
theorem sessionEmitsPackOfItsBits : Obligations.SessionEmitsPackOfItsBits := by
  intro is s r hi hclear hrun hr
  obtain ⟨-, hfits, hblock, hbytes⟩ := (succeeds_of_run hrun hr).payload hi hclear
  rw [packBytes_length] at hfits
  rw [hblock]
  exact ⟨hbytes, flushed_pushBits_reset hfits⟩

/-- Settles O48: each command feeds the packer, and the payload fits. -/
theorem fittingSessionSucceeds : Obligations.FittingSessionSucceeds := by
  intro is s hi hclear hfits
  obtain ⟨r, hrun, hr, hblock, -⟩ := (succeeds_payload hi hclear hfits).exists_run rfl
  refine ⟨r, hrun, hr, ?_⟩
  rw [hblock]
  exact ⟨rfl, rfl, rfl⟩

end

section
/-! Texts and the pseudo-commands (spec/30_encoding.md section 6, spec/40_frequency.md section 5,
spec/42_code_rom.md section 3, spec/70_reset_and_hazards.md section 2): `PACK_STR`, `FREQ_TEXT`, lookups
after a frequency write, the length of a coded text, its unique decoding, and the whole flow. -/

namespace Sys2Proof.Machine

-- ======================================================= PACK_STR

section PackStr
variable {bs : BitString}

/-- The number a bit-string spells has no more binary digits than the string has bits. -/
theorem natOfBits_lt (bs : BitString) : natOfBits bs < 2 ^ bs.length := by
  refine Nat.lt_pow_two_of_testBit _ fun i hi => ?_
  rw [natOfBits_testBit, List.getD_eq_default]
  simpa using hi

/-- The low bits of the number a bit-string spells are the string. -/
theorem lowBits_natOfBits {w : Nat} (h : bs.length ≤ w) :
    lowBits bs.length (BitVec.ofNat w (natOfBits bs)) = bs := by
  refine List.ext_getElem (lowBits_length _ _) fun k _ hk => ?_
  have hbit := natOfBits_testBit_of_lt hk
  rw [List.getD_eq_getElem _ _ hk] at hbit
  have hin : bs.length - 1 - k < w := by omega
  simpa [lowBits, BitVec.getLsbD_ofNat, hin] using hbit

/-- The bit count of a chunk fits its field. -/
theorem chunkLength_toNat (h : bs.length ≤ 16) : (BitVec.ofNat 5 bs.length).toNat = bs.length :=
  Nat.mod_eq_of_lt (by omega)

/-- A chunk of at most 16 bits pushes its bits (R100, R181). -/
theorem pushedBits_packChunk (code : Table CodeEntry) (h : bs.length ≤ 16) :
    pushedBits code (packChunk bs) = bs := by
  rw [packChunk, pushedBits, literalBits_eq_lowBits, chunkLength_toNat h, lowBits_natOfBits h]

/-- A chunk of 1 to 16 bits is a legal `PACK_BITS` (R94, R100). -/
theorem packChunk_wellFormed (h1 : 1 ≤ bs.length) (h16 : bs.length ≤ 16) :
    (packChunk bs).wellFormed = true := by
  refine decide_eq_true ?_
  rw [literalLegal, chunkLength_toNat h16]
  refine ⟨h1, h16, BitVec.eq_of_toNat_eq ?_⟩
  have hlt := natOfBits_lt bs
  rw [BitVec.toNat_ushiftRight, Nat.shiftRight_eq_div_pow, BitVec.toNat_ofNat]
  exact Nat.div_eq_of_lt ((Nat.mod_le _ _).trans_lt hlt)

@[simp] theorem packChunks_nil (n : Nat) : packChunks n [] = [] := by
  cases n <;> rfl

/-- `PACK_STR` cuts off 16 bits, or what there is (R100). -/
theorem packChunks_succ (n : Nat) (h : bs ≠ []) :
    packChunks (n + 1) bs = packChunk (bs.take 16) :: packChunks n (bs.drop 16) := by
  cases bs with
  | nil => exact absurd rfl h
  | cons b bs => rfl

/-- With a chunk to spare for every bit, only the empty string expands to nothing. -/
theorem packChunks_eq_nil_iff {n : Nat} (hn : bs.length ≤ n) : packChunks n bs = [] ↔ bs = [] := by
  cases bs with
  | nil => simp
  | cons b bs =>
    obtain ⟨n, rfl⟩ : ∃ m, n = m + 1 := Nat.exists_eq_add_one.2 ((Nat.succ_pos _).trans_le hn)
    simp [packChunks]

/-- Induction over the chunks of a bit-string: what holds of the empty expansion, and of one chunk in front
of an expansion of which it holds, holds of the expansion of every string (R100). -/
theorem packChunks_induction {P : BitString → List Instr → Prop} (hnil : P [] [])
    (hcons : ∀ {bs is}, bs ≠ [] → (bs.drop 16 = [] ↔ is = []) → P (bs.drop 16) is →
      P bs (packChunk (bs.take 16) :: is))
    {n : Nat} (hn : bs.length ≤ n) : P bs (packChunks n bs) := by
  induction n generalizing bs with
  | zero =>
    obtain rfl := List.length_eq_zero_iff.1 (Nat.le_zero.1 hn)
    exact hnil
  | succ n ih =>
    by_cases hbs : bs = []
    · subst hbs
      exact hnil
    · have hdrop : (bs.drop 16).length ≤ n := by
        have := List.length_pos_of_ne_nil hbs
        rw [List.length_drop]
        omega
      rw [packChunks_succ n hbs]
      exact hcons hbs (packChunks_eq_nil_iff hdrop).symm (ih hdrop)

/-- The first chunk of a bit-string has 1 to 16 bits, and 16 when bits follow it. -/
theorem take_chunk_length (h : bs ≠ []) :
    1 ≤ (bs.take 16).length ∧ (bs.take 16).length ≤ 16 ∧ (bs.drop 16 ≠ [] → (bs.take 16).length = 16) := by
  have hpos := List.length_pos_of_ne_nil h
  rw [List.length_take]
  refine ⟨by omega, by omega, fun hmore => ?_⟩
  rw [ne_eq, List.drop_eq_nil_iff] at hmore
  omega

/-- `PACK_STR` pushes its string. -/
theorem pushedStream_packStr (code : Table CodeEntry) (bs : BitString) :
    pushedStream code (packStr bs) = bs := by
  refine packChunks_induction (P := fun bs is => pushedStream code is = bs) rfl
    (fun {bs is} hbs _ ih => ?_) le_rfl
  obtain ⟨-, h16, -⟩ := take_chunk_length hbs
  rw [pushedStream, List.flatMap_cons, pushedBits_packChunk code h16]
  exact (congrArg (bs.take 16 ++ ·) ih).trans (List.take_append_drop 16 bs)

/-- `PACK_STR` is one command for each 16 bits and one for what is left. -/
theorem packStr_length (bs : BitString) : (packStr bs).length = (bs.length + 15) / 16 := by
  refine packChunks_induction (P := fun bs is => is.length = (bs.length + 15) / 16) rfl
    (fun hbs _ ih => ?_) le_rfl
  have hpos := List.length_pos_of_ne_nil hbs
  rw [List.length_cons, ih, List.length_drop]
  omega

/-- `PACK_STR` is legal `PACK_BITS` commands and nothing else. -/
theorem packStr_wellFormed (bs : BitString) :
    ∀ i ∈ packStr bs, ∃ n bits, i = .packBits n bits ∧ i.wellFormed = true := by
  refine packChunks_induction
    (P := fun _ is => ∀ i ∈ is, ∃ n bits, i = .packBits n bits ∧ i.wellFormed = true)
    nofun (fun hbs _ ih => List.forall_mem_cons.2 ⟨?_, ih⟩) le_rfl
  obtain ⟨h1, h16, -⟩ := take_chunk_length hbs
  exact ⟨_, _, rfl, packChunk_wellFormed h1 h16⟩

/-- Every command of `PACK_STR` but the last takes 16 bits. -/
theorem packStr_dropLast (bs : BitString) :
    ∀ i ∈ (packStr bs).dropLast, ∃ bits, i = .packBits 16 bits := by
  refine packChunks_induction (P := fun _ is => ∀ i ∈ is.dropLast, ∃ bits, i = .packBits 16 bits)
    nofun (fun {bs is} hbs hlast ih => ?_) le_rfl
  by_cases his : is = []
  · simp [his]
  · obtain ⟨-, -, h16⟩ := take_chunk_length hbs
    rw [List.dropLast_cons_of_ne_nil his]
    refine List.forall_mem_cons.2 ⟨?_, ih⟩
    rw [packChunk, h16 (mt hlast.1 his)]
    exact ⟨_, rfl⟩

end PackStr

-- ======================================================= FREQ_TEXT and frequency writes

section Frequency
variable {b : Block} {s : State} {t : List Sym}

/-- `FREQ_TEXT` succeeds where no count passes 65535, and counts the text (R100, R112). -/
theorem succeeds_freqText (h : ∀ x, (Table.get b.freq x).toNat + t.count x ≤ 65535) :
    ∃ b', Succeeds (freqText t) b b' [] ∧
      (∀ x, (Table.get b'.freq x).toNat = (Table.get b.freq x).toNat + t.count x) ∧
      b'.err = b.err ∧ b'.packer = b.packer := by
  induction t generalizing b with
  | nil => exact ⟨b, .nil b, fun x => by simp, rfl, rfl⟩
  | cons y t ih =>
    have hroom : (Table.get b.freq y).toNat < 65535 := by
      have := h y
      rw [List.count_cons_self] at this
      omega
    have hcounted : ∀ x, (Table.get (effectOf (.freqInc y) b).freq x).toNat + t.count x
        = (Table.get b.freq x).toNat + (y :: t).count x := by
      intro x
      simp only [effectOf, Block.invalidate_freq, Table.get_set, List.count_cons, beq_iff_eq]
      by_cases hx : x = y
      · rw [if_pos hx, if_pos hx.symm, hx, count_toNat_add_one hroom]
        omega
      · rw [if_neg hx, if_neg (Ne.symm hx)]
        omega
    obtain ⟨b', htail, hfreq, herr, hpacker⟩ := ih fun x => (hcounted x).trans_le (h x)
    have head : resultOf (.freqInc y) b = respond (effectOf (.freqInc y) b) 0 [] :=
      Block.freqInc_of_lt hroom
    exact ⟨b', .cons head htail, fun x => (hfreq x).trans (hcounted x), herr, hpacker⟩

/-- A `FREQ_WR` and a `FREQ_INC` below the largest count clear `READY` (R25). -/
theorem ready_of_frequency_write {i : Instr} {sym : Sym} {t : State}
    (hi : (∃ c, i = .freqWr sym c) ∨ (i = .freqInc sym ∧ (Table.get s.block.freq sym).toNat < 65535))
    (ht : exec i s = .next t) : t.block.ready = false := by
  rcases hi with ⟨c, rfl⟩ | ⟨rfl, hlt⟩
  · cases ht
    rfl
  · rw [exec_freqInc_of_lt hlt] at ht
    cases ht
    rfl

/-- Nothing but `BUILD` sets `READY` (R25). -/
theorem ready_of_run_without_build {is : List Instr} {r : Transcript} (hs : s.block.ready = false)
    (his : .build ∉ is) (hrun : runInstrs is s = some r) : r.state.block.ready = false := by
  induction is generalizing s r with
  | nil =>
    cases hrun
    exact hs
  | cons i is ih =>
    obtain ⟨hi, htail⟩ := not_or.1 (mt List.mem_cons.2 his)
    obtain ⟨t, r', hexec, hrest, rfl⟩ := runInstrs_cons_eq_some hrun
    rw [exec_eq_next] at hexec
    subst hexec
    have hnext : (resultOf i s.block).block.ready = false := by
      rw [← Bool.not_eq_true, resultOf_ready]
      rintro (⟨rfl, -⟩ | ⟨hready, -⟩)
      · exact hi rfl
      · exact absurd hready (by simp [hs])
    exact ih (r := r') hnext htail hrest

end Frequency

-- ======================================================= counted texts

section Counted
variable {freq : Table Count} {t : List Sym}

/-- A text counted in a frequency table has the present symbols as its symbols. -/
theorem scan_toFinset_of_counted (h : ∀ x, t.count x = (Table.get freq x).toNat) :
    (scan freq).toFinset = t.toFinset := by
  ext x
  rw [List.mem_toFinset, List.mem_toFinset, mem_scan, ← List.count_pos_iff, h, present, ne_eq,
    ← BitVec.toNat_inj, Nat.pos_iff_ne_zero]
  rfl

/-- A sum over a counted text is a sum over the present symbols, each as often as it is counted. -/
theorem sum_map_of_counted (h : ∀ x, t.count x = (Table.get freq x).toNat) (f : Sym → Nat) :
    (t.map f).sum = ((scan freq).map fun x => (Table.get freq x).toNat * f x).sum := by
  rw [Finset.sum_list_map_count, ← scan_toFinset_of_counted h, List.sum_toFinset _ (scan_nodup freq)]
  simp only [h, smul_eq_mul]

/-- The length of a counted text is the sum of all counts. -/
theorem length_of_counted (h : ∀ x, t.count x = (Table.get freq x).toNat) : t.length = totalCount freq := by
  have hsum := sum_map_of_counted h fun _ => 1
  simpa [totalCount_eq_sum_scan] using hsum

/-- A counted text has as many distinct symbols as are present. -/
theorem distinct_of_counted (h : ∀ x, t.count x = (Table.get freq x).toNat) :
    distinct freq = t.dedup.length := by
  rw [distinct, ← List.toFinset_card_of_nodup (scan_nodup freq), scan_toFinset_of_counted h,
    List.card_toFinset]

end Counted

-- ======================================================= coded texts

section Coded
variable {b : Block} {code : Table CodeEntry} {t t' : List Sym}

/-- `ENC_TEXT` pushes the codes of the text (R100, R162). -/
theorem pushedStream_encText (code : Table CodeEntry) (t : List Sym) :
    pushedStream code (encText t) = codedText code t :=
  List.flatMap_map ..

theorem pushes_encText (t : List Sym) : ∀ i ∈ encText t, pushes i = true := by
  simp [encText, pushes]

/-- The commands of `ENC_TEXT` have nothing to fear when every symbol has a code in a ready ROM, and only
then. -/
theorem feeds_encText_iff :
    (∀ i ∈ encText t, Feeds b i) ↔ ∀ x ∈ t, b.ready = true ∧ (Table.get b.code x).isSome = true := by
  simp [encText, Feeds]

/-- A coded text has the sum of its codes' lengths in bits (R162). -/
theorem codedText_length (code : Table CodeEntry) (t : List Sym) :
    (codedText code t).length = (t.map fun x => ((Table.get code x).getD []).length).sum :=
  List.length_flatMap ..

/-- Two texts whose codes, none of them empty and none the beginning of another, concatenate to the same bits
are the same text (R162): the first codes begin one string, so they are of one symbol. -/
theorem text_eq_of_codedText_eq (hne : ∀ x, Table.get code x ≠ some [])
    (hprefix : ∀ {x y p q}, Table.get code x = some p → Table.get code y = some q → p <+: q → x = y)
    (ht : ∀ x ∈ t, (Table.get code x).isSome = true) (ht' : ∀ x ∈ t', (Table.get code x).isSome = true)
    (h : codedText code t = codedText code t') : t = t' := by
  have hnil : ∀ {x : Sym} {u : List Sym}, (Table.get code x).isSome = true → codedText code (x :: u) ≠ [] := by
    intro x u hx hempty
    obtain ⟨p, hp⟩ := Option.isSome_iff_exists.1 hx
    rw [codedText, List.flatMap_cons, hp, List.append_eq_nil_iff, Option.getD_some] at hempty
    exact hne x (hempty.1 ▸ hp)
  induction t generalizing t' with
  | nil =>
    cases t' with
    | nil => rfl
    | cons y t' => exact absurd h.symm (hnil (ht' y List.mem_cons_self))
  | cons x t ih =>
    cases t' with
    | nil => exact absurd h (hnil (ht x List.mem_cons_self))
    | cons y t' =>
      obtain ⟨hx, hrest⟩ := List.forall_mem_cons.1 ht
      obtain ⟨hy, hrest'⟩ := List.forall_mem_cons.1 ht'
      obtain ⟨p, hp⟩ := Option.isSome_iff_exists.1 hx
      obtain ⟨q, hq⟩ := Option.isSome_iff_exists.1 hy
      have hbits : p ++ codedText code t = q ++ codedText code t' := by
        simpa [codedText, hp, hq] using h
      obtain rfl : x = y := by
        rcases List.prefix_or_prefix_of_prefix (List.prefix_append p _) (hbits ▸ List.prefix_append q _) with
          hpq | hqp
        · exact hprefix hp hq hpq
        · exact (hprefix hq hp hqp).symm
      obtain rfl : p = q := Option.some.inj (hp.symm.trans hq)
      rw [ih hrest hrest' (List.append_cancel_left hbits)]

/-- No stored code of a block that meets the invariant is the beginning of another: the codes are those of a
code table, or there are none (R26). -/
theorem Block.Inv.eq_of_code_prefix (hb : b.Inv) {x y : Sym} {p q : BitString}
    (hx : Table.get b.code x = some p) (hy : Table.get b.code y = some q) (hpq : p <+: q) : x = y := by
  cases hready : b.ready with
  | false =>
    obtain ⟨hcode, -, -⟩ := hb.unbuilt hready
    simp [hcode] at hx
  | true =>
    obtain ⟨-, -, -, -, hcode⟩ := hb.built hready
    rw [hcode] at hx hy
    exact eq_of_codeTable_prefix hx hy hpq

/-- No stored code is empty (R23). -/
theorem Block.Inv.code_ne_nil (hb : b.Inv) (x : Sym) : Table.get b.code x ≠ some [] :=
  fun h => absurd (hb.code_len x [] h).1 (by simp)

/-- The text the built table was counted from has a code for each of its symbols. -/
theorem Block.Inv.feeds_countedText (hb : b.Inv) (hready : b.ready = true)
    (h : ∀ x, t.count x = (Table.get b.freq x).toNat) : ∀ i ∈ encText t, Feeds b i := by
  refine feeds_encText_iff.2 fun x hx => ⟨hready, (hb.code_present hready x).2 fun habsent => ?_⟩
  have hcount := List.count_pos_iff.2 hx
  rw [h, habsent] at hcount
  exact absurd hcount (by decide)

/-- The text the built table was counted from has fewer than 2^24 symbols of at most 254 bits each, so its
payload fits (R142, R239). -/
theorem Block.Inv.countedText_fits (hb : b.Inv) (hready : b.ready = true)
    (h : ∀ x, t.count x = (Table.get b.freq x).toNat) :
    (packBytes (codedText b.code t)).length ≤ 2 ^ 32 - 1 := by
  obtain ⟨-, h255, -⟩ := hb.built hready
  have hcodes : (codedText b.code t).length ≤ t.length * 254 := by
    rw [codedText_length]
    simpa using List.sum_le_card_nsmul (t.map fun x => ((Table.get b.code x).getD []).length) 254
      fun k hk => by
        obtain ⟨x, -, rfl⟩ := List.mem_map.1 hk
        cases hx : Table.get b.code x with
        | none => exact Nat.zero_le _
        | some bits => exact (hb.code_len x bits hx).2
  have hlength := length_of_counted h
  have htotal := totalCount_lt b.freq h255
  rw [packBytes_length]
  omega

/-- From a clear packer, encoding the text the built table was counted from succeeds and emits `pack` of its
codes (R162). -/
theorem Block.Inv.succeeds_countedText (hb : b.Inv) (hready : b.ready = true)
    (hclear : b.packer = Packer.reset) (h : ∀ x, t.count x = (Table.get b.freq x).toNat) :
    Succeeds (encText t ++ [.packFlush]) b (b.afterPayload (codedText b.code t))
      (packBytes (codedText b.code t)) := by
  have hfits := hb.countedText_fits hready h
  rw [← pushedStream_encText] at hfits ⊢
  exact succeeds_payload (hb.feeds_countedText hready h) hclear hfits

/-- A coded text that is not empty has at least one bit. -/
theorem Block.Inv.codedText_length_pos (hb : b.Inv) {x : Sym} (hx : x ∈ t)
    (hcode : (Table.get b.code x).isSome = true) : 1 ≤ (codedText b.code t).length := by
  obtain ⟨bits, hbits⟩ := Option.isSome_iff_exists.1 hcode
  refine (hb.code_len x bits hbits).1.trans ?_
  rw [codedText_length]
  refine List.single_le_sum (fun _ _ => Nat.zero_le _) _ (List.mem_map.2 ⟨x, hx, ?_⟩)
  rw [hbits]
  rfl

/-- The number of bits from the number of bytes and the trailing-bit count, when there is a bit (R184). -/
theorem length_eq_of_trailCount {bs : BitString} (h : 1 ≤ bs.length) :
    8 * ((packBytes bs).length - 1) + trailCount bs = bs.length := by
  rw [packBytes_length, trailCount]
  split
  · omega
  · split <;> omega

end Coded

end Sys2Proof.Machine

open Sys2Proof Sys2Proof.Machine

/-- Settles O50: each part by induction over the chunks. -/
theorem packStrPushesItsString : Obligations.PackStrPushesItsString :=
  fun b => ⟨fun code => pushedStream_packStr code b, packStr_length b, packStr_wellFormed b,
    packStr_dropLast b⟩

/-- Settles O22, by induction over the text. -/
theorem freqTextCountsTheText : Obligations.FreqTextCountsTheText := by
  intro t s h
  obtain ⟨b', hrun, hfreq, herr, hpacker⟩ := succeeds_freqText h
  obtain ⟨r, hr, hsucc, rfl, hbytes⟩ := hrun.exists_run rfl
  exact ⟨r, hr, hsucc, hbytes, hfreq, herr, hpacker⟩

/-- Settles O23: the write clears `READY`, only `BUILD` sets it, and without it the lookups fault. -/
theorem lookupsFaultAfterAFrequencyWrite : Obligations.LookupsFaultAfterAFrequencyWrite := by
  intro s t i sym between r hi ht hbuild hrun x
  have hready := ready_of_run_without_build (ready_of_frequency_write hi ht) hbuild hrun
  exact ⟨exec_of_resultOf_eq_raise (i := .encSym x) (Block.encSym_of_not_ready hready),
    fun widx hwidx => exec_of_resultOf_eq_raise (i := .codeRd x widx) (Block.codeRd_of_not_ready hwidx hready)⟩

/-- Settles O38: the payload fits, its bits are the codes of the text, and the text takes each present
symbol as often as it is counted. -/
theorem countedTextHasTheSummedLength : Obligations.CountedTextHasTheSummedLength := by
  intro s t hs hready hclear hcount
  have hb := hs.block
  obtain ⟨r, hrun, hsucc, hblock, hbytes⟩ :=
    (hb.succeeds_countedText hready hclear hcount).exists_run rfl
  have hfits := hb.countedText_fits hready hcount
  rw [packBytes_length] at hfits
  obtain ⟨hbyteCnt, htrail⟩ := flushed_pushBits_reset hfits
  obtain ⟨h1, -⟩ := hb.built hready
  obtain ⟨x, hx⟩ := List.exists_mem_of_length_pos h1
  have hpresent := (mem_scan _).1 hx
  have hxt : x ∈ t := by
    rw [← List.mem_toFinset, ← scan_toFinset_of_counted hcount, List.mem_toFinset]
    exact hx
  have hpos := hb.codedText_length_pos hxt ((hb.code_present hready x).2 hpresent)
  have hlength := length_eq_of_trailCount hpos
  refine ⟨r, hrun, hsucc, ?_, ?_, ?_⟩
  · rw [hbytes, packBytes_length]
    omega
  · rw [hblock, hbytes]
    exact hbyteCnt
  · rw [hblock, Block.afterPayload, hbyteCnt, htrail, hlength, codedText_length,
      sum_map_of_counted hcount]

/-- Settles O51: `unpack` gives the two coded texts back, which are equal, and codes that are not empty, none
the beginning of another, tell the text. -/
theorem payloadDeterminesTheText : Obligations.PayloadDeterminesTheText := by
  intro s t t' r r' hs hclear hrun hr hrun' hr' hbytes htrail
  obtain ⟨hfeeds, hfits, hblock, hout⟩ := (succeeds_of_run hrun hr).payload (pushes_encText t) hclear
  obtain ⟨hfeeds', hfits', hblock', hout'⟩ := (succeeds_of_run hrun' hr').payload (pushes_encText t') hclear
  rw [pushedStream_encText] at hfits hblock hout hfits' hblock' hout'
  rw [packBytes_length] at hfits hfits'
  obtain ⟨-, hcount⟩ := flushed_pushBits_reset hfits
  obtain ⟨-, hcount'⟩ := flushed_pushBits_reset hfits'
  have htrails : trailCount (codedText s.block.code t) = trailCount (codedText s.block.code t') := by
    rw [hblock, hblock'] at htrail
    rw [← hcount, ← hcount']
    exact congrArg BitVec.toNat htrail
  have hcoded : codedText s.block.code t = codedText s.block.code t' := by
    rw [← unpack_packBytes (codedText s.block.code t), htrails, ← hout, hbytes, hout', unpack_packBytes]
  exact text_eq_of_codedText_eq hs.block.code_ne_nil hs.block.eq_of_code_prefix
    (fun x hx => (feeds_encText_iff.1 hfeeds x hx).2) (fun x hx => (feeds_encText_iff.1 hfeeds' x hx).2) hcoded

/-- Settles O52: after `CLR` the table counts the text, so `BUILD` finds its distinct symbols, and the built
table encodes the text it was counted from. -/
theorem wholeFlowEncodesTheText : Obligations.WholeFlowEncodesTheText := by
  intro t s hne hcounts hdistinct
  have hclr : resultOf .clr s.block = respond Block.reset 0 [] := rfl
  obtain ⟨b, htext, hfreq, herr, hpacker⟩ := succeeds_freqText (b := Block.reset) (t := t)
    fun x => by simpa [Block.reset] using hcounts x
  have hcount : ∀ x, t.count x = (Table.get b.freq x).toNat := fun x => by simp [hfreq, Block.reset]
  have hn := distinct_of_counted hcount
  have h1 : 1 ≤ distinct b.freq := by
    rw [hn, Nat.one_le_iff_ne_zero, ne_eq, List.length_eq_zero_iff, List.dedup_eq_nil]
    exact hne
  have h255 : distinct b.freq ≤ 255 := hn.trans_le hdistinct
  have hbuild : resultOf .build b = respond b.writeCodes _ [] := Block.build_of_some h1 h255
  have hinv : b.writeCodes.Inv := (htext.inv Block.reset_inv).writeCodes h1 h255
  have hencode := hinv.succeeds_countedText rfl hpacker hcount
  have hfits := hinv.countedText_fits rfl hcount
  rw [packBytes_length] at hfits
  obtain ⟨hbyteCnt, htrail⟩ := flushed_pushBits_reset hfits
  have hflow := (Succeeds.cons hclr htext).append (.cons hbuild hencode)
  obtain ⟨r, hrun, hsucc, hblock, hbytes⟩ := hflow.exists_run (s := s) rfl
  rw [List.nil_append, List.nil_append, List.nil_append] at hbytes
  refine ⟨r, ?_, hsucc, ?_⟩
  · simpa only [List.append_assoc, List.cons_append] using hrun
  · rw [hblock, hbytes]
    refine ⟨rfl, ?_, ?_, ?_, hbyteCnt, herr⟩
    · rw [Block.afterPayload, htrail]
      exact unpack_packBytes _
    · rw [← hn]
      exact Nat.mod_eq_of_lt (by omega)
    · rw [length_of_counted hcount]
      exact Nat.mod_eq_of_lt (totalCount_lt b.freq h255)

end
